-- ==== Sys2Proof/Word.lean ====
section
/-! DEFINITION. The word types of the CORE block (spec/00_scope.md R9, R11, R12, R104): every value is an unsigned bit vector of a fixed width. -/

namespace Sys2Proof

/-- One byte of `mem`, one general register, one timer (R32, R44, R45, R49). -/
abbrev Byte := BitVec 8

/-- A 16-bit value: `pc`, `I`, a stack entry, an instruction word (R35, R41, R43, R100). -/
abbrev Word := BitVec 16

/-- A register number `0x0` to `0xF`, the instruction field `x` or `y` (R32, R104). -/
abbrev Reg := BitVec 4

/-- The 4-bit count field `n` (R104). -/
abbrev Nibble := BitVec 4

/-- The 12-bit field `nnn` (R104). -/
abbrev Addr12 := BitVec 12

end Sys2Proof
end

