-- ==== Sys2Proof/Config.lean ====
section
/-! DEFINITION. What the spec leaves open and the model keeps FREE: constants without a body, of which nothing can be proved but their type (spec/92_eei_decisions.md D3, D4, D8, D9, D10). The font bytes (D2) have a default and stand in Machine/Memory.lean. -/

namespace Sys2Proof

/-- D10: where `pc` stands after an error raised while an instruction executes. -/
inductive PcAfterExecError where
  /-- `pc` keeps the fetch's advance, `a + 2`. -/
  | advanced
  /-- `pc` is the fetch address `a` again. -/
  | restored
deriving DecidableEq, Repr, Inhabited

/-- D8: what `Fx29` does when `V[x]` is no hexadecimal digit. -/
inductive Fx29Policy where
  /-- The formula applies: `I` becomes `5 * V[x]`. -/
  | literal
  /-- `UndefinedOperandError` is raised. -/
  | fault
deriving DecidableEq, Repr, Inhabited

/-- DESIGN CHOICE (log 9), safe: the byte the random source gives at draw number `k` (R260, D9).
No law is assumed of it. -/
opaque Config.randomByte (k : Nat) : Byte

/-- DESIGN CHOICE (log 3), safe: whether `ProgramCounterError` carries `pc + 1` (true) or `pc` (D3). -/
opaque Config.pcErrorCarriesNext (pc : Word) : Bool

/-- DESIGN CHOICE (log 4), safe: whether `IndexRegisterError` carries the last address of the range
(true) or the first (D4). -/
opaque Config.idxErrorCarriesLast (first last : Nat) : Bool

/-- DESIGN CHOICE (log 10), safe: the implementation's choice of D10, kept open. -/
opaque Config.pcAfterExecError : PcAfterExecError

/-- DESIGN CHOICE (log 8), safe: the implementation's choice of D8, kept open. -/
opaque Config.fx29Policy : Fx29Policy

end Sys2Proof
end

