-- ==== Sys2Proof/Machine/State.lean ====
section
/-! DEFINITION. The state of the block (spec/10_state.md R30 to R51), the driver's calls and what they return (spec/60_exceptions.md R300, R335, R336), and the reasons a step can stop. State is plain data. -/

namespace Sys2Proof.Machine

/-- `mem`, as (address, byte) pairs in one canonical form (`Memory.wf`): addresses rising, and only
bytes that differ from the reset contents listed (R49, log 29). -/
abbrev Memory := List Host.Cell

/-- `fb`: 32 rows of 64 pixels, `true` is lit (R46, R230). Row `py`, column `px` is pixel
`fb[px, py]`; `Framebuffer.view` lays them out row-major. -/
abbrev Framebuffer := Vector (Vector Bool 64) 32

/-- The typed errors of R300, in the order of their codes, each with its payload. -/
inductive OpError where
  /-- code 1, from `load` (R301) -/
  | size
  /-- code 2, from the fetch; carries the offending address (R302, D3) -/
  | programCounter (addr : Nat)
  /-- code 3, from `Fx55`, `Fx65`, `Fx33`, `Dxyn`; carries the offending address (R303, D4) -/
  | indexRegister (addr : Nat)
  /-- code 4, from dispatch; carries the raw instruction word (R304) -/
  | opcode (w : Word)
  /-- code 5, from `00EE` (R306) -/
  | stackEmpty
  /-- code 6, from `set_key` (R308) -/
  | keyIndex
  /-- code 7, from `2nnn` (R307) -/
  | stackOverflow
  /-- code 8, from `Ex9E`, `ExA1`, `Fx29`; carries the raw instruction word (R309) -/
  | undefinedOperand (w : Word)
deriving DecidableEq, Repr

/-- A driver-facing operation (R18, R336). `new` is `State.reset` itself (R351). -/
inductive DriverCall where
  /-- `reset()` (R350) -/
  | reset
  /-- `load(bytes)` (R355) -/
  | load (bytes : List Byte)
  /-- `cycle()` (R110) -/
  | cycle
  /-- `tick_timers()` (R320) -/
  | tickTimers
  /-- `set_key(index, pressed)` (R325); the index is an unsigned integer of any width (D23) -/
  | setKey (index : Nat) (pressed : Bool)
  /-- `framebuffer()` (R330) -/
  | framebuffer
  /-- the `display_dirty` query (R331) -/
  | queryDirty
  /-- the `display_dirty` clear (R332) -/
  | clearDirty
deriving DecidableEq, Repr

/-- What a driver call returns (R336). -/
inductive CallResult where
  /-- `Ok`, and the return of the calls that return nothing -/
  | ok
  /-- the error the call ended with (R305) -/
  | error (e : OpError)
  /-- the read-only view of `framebuffer()`, row-major, element `y*64+x` (R330) -/
  | view (pixels : Vector Bool 2048)
  /-- the answer of the dirty query (R331) -/
  | dirtyFlag (d : Bool)
deriving DecidableEq, Repr

/-- The state. The first ten fields are the elements of R30, all of them. The last four are the
model's own: `calls`, `result`, `errorSeen`, `draws` (logs 16, 17, 18, 9). -/
structure State where
  /-- `pc`, the address of the next instruction (R35) -/
  pc : Word
  /-- `mem` (R49) -/
  mem : Memory
  /-- `I` (R41) -/
  i : Word
  /-- `V0` to `VF` (R32) -/
  v : Vector Byte 16
  /-- `stack`, the newest entry first (R42, R43) -/
  stack : List Word
  /-- `DT` (R44) -/
  dt : Byte
  /-- `ST` (R45) -/
  st : Byte
  /-- `fb` (R46) -/
  fb : Framebuffer
  /-- `dirty` (R47) -/
  dirty : Bool
  /-- `keys`, `true` is pressed (R48) -/
  keys : Vector Bool 16
  /-- DESIGN CHOICE (log 16): the driver's calls to come, oldest first; when none is listed the
  driver calls `cycle()` -/
  calls : List DriverCall
  /-- DESIGN CHOICE (log 17): what the last driver call returned -/
  result : CallResult
  /-- DESIGN CHOICE (log 18): an error has been returned at some time (D22) -/
  errorSeen : Bool
  /-- DESIGN CHOICE (log 9): how many random bytes have been drawn (D9) -/
  draws : Nat
deriving DecidableEq, Repr

/-- Reasons to stop. The block itself never stops: its errors are returned values (R300, R305). -/
inductive Fault where
  /-- Raised by the byte accesses `State.readByte` and `State.writeByte` for an address above `0xFFF`,
  which R14 leaves undefined. SAFE: the machine stops. Every instruction checks its range first
  (R76), so no step raises it. -/
  | noSuchAddress (addr : Nat)
deriving DecidableEq, Repr

/-- Reasons an instruction has no meaning. -/
inductive Refusal where
  /-- Raised by `exec` for an instruction without a meaning yet. SAFE: the machine stops. No arm of
  `exec` raises it. -/
  | notModelled (mnemonic : String)
deriving DecidableEq, Repr

/-- What a step or a meaning answers. -/
abbrev Answer := Host.Outcome State Fault Refusal

/-- After `new()` or `reset()` (R51, R350): the entry point in `pc` (R352; D1, log 1), memory at its
reset contents, everything else zero, empty or false. The model's own fields are DESIGN CHOICE
(logs 9, 16, 17, 18). -/
def State.reset : State where
  pc := 0x200
  mem := []
  i := 0
  v := Vector.replicate 16 0
  stack := []
  dt := 0
  st := 0
  fb := Vector.replicate 32 (Vector.replicate 64 false)
  dirty := false
  keys := Vector.replicate 16 false
  calls := []
  result := .ok
  errorSeen := false
  draws := 0

end Sys2Proof.Machine
end

