-- ==== Sys2Proof/Machine/Memory.lean ====
section
/-! DEFINITION. `mem` as data: the reset contents with the font (spec/20_memory.md R79, R80, spec/10_state.md R51), reading and writing one byte, and the canonical form (log 29). -/

namespace Sys2Proof.Machine

/-- PRESUMED (log 2), unsafe: the 80 bytes of `FONT_GLYPHS`, the default of D2, one glyph a line. -/
def fontGlyphs : List Byte :=
  [ 0xF0, 0x90, 0x90, 0x90, 0xF0,
    0x20, 0x60, 0x20, 0x20, 0x70,
    0xF0, 0x10, 0xF0, 0x80, 0xF0,
    0xF0, 0x10, 0xF0, 0x10, 0xF0,
    0x90, 0x90, 0xF0, 0x10, 0x10,
    0xF0, 0x80, 0xF0, 0x10, 0xF0,
    0xF0, 0x80, 0xF0, 0x90, 0xF0,
    0xF0, 0x10, 0x20, 0x40, 0x40,
    0xF0, 0x90, 0xF0, 0x90, 0xF0,
    0xF0, 0x90, 0xF0, 0x10, 0xF0,
    0xF0, 0x90, 0xF0, 0x90, 0x90,
    0xE0, 0x90, 0xE0, 0x90, 0xE0,
    0xF0, 0x80, 0x80, 0x80, 0xF0,
    0xE0, 0x90, 0x90, 0x90, 0xE0,
    0xF0, 0x80, 0xF0, 0x80, 0xF0,
    0xF0, 0x80, 0xF0, 0x80, 0x80 ]

/-- `MEM_SIZE` (R9). -/
def memSize : Nat := 4096

/-- What an address that memory does not list reads as: its contents after reset, the font at
`0x000` to `0x04F` and `0x00` above (R51, R79). -/
def Memory.unlisted (a : Nat) : Byte := fontGlyphs.getD a 0

/-- The byte at address `a`. -/
def Memory.read : Memory → Nat → Byte
  | [], a => Memory.unlisted a
  | (k, b) :: m, a => if a = k then b else Memory.read m a

/-- Memory without any entry for address `a`. -/
def Memory.forget (m : Memory) (a : Nat) : Memory := m.filter fun c => c.1 != a

/-- Memory with the entry `(a, b)` put before the first higher address. -/
def Memory.insert (a : Nat) (b : Byte) : Memory → Memory
  | [] => [(a, b)]
  | (k, c) :: m => if a < k then (a, b) :: (k, c) :: m else (k, c) :: Memory.insert a b m

/-- Memory with byte `b` at address `a`. Writing what an unlisted address reads as unlists it. -/
def Memory.write (m : Memory) (a : Nat) (b : Byte) : Memory :=
  if b = Memory.unlisted a then Memory.forget m a else Memory.insert a b (Memory.forget m a)

/-- Whether the addresses rise strictly. -/
def Memory.rising : Memory → Bool
  | [] => true
  | [_] => true
  | (k, _) :: (l, c) :: m => k < l && Memory.rising ((l, c) :: m)

/-- The canonical form: strictly rising addresses, all inside `mem`, no entry equal to what an
unlisted address reads as. Equal memories are then equal lists. -/
def Memory.wf (m : Memory) : Bool :=
  Memory.rising m && m.all fun c => c.1 < memSize && c.2 != Memory.unlisted c.1

end Sys2Proof.Machine
end

