-- ==== Sys2Proof/Machine/Ops.lean ====
section
/-! DEFINITION. The named operations of spec/00_scope.md R14 over the state, errors (spec/60_exceptions.md R305), the memory ranges at `I` (spec/20_memory.md R76, R207), and the fetch (spec/30_encoding.md R101 to R103). -/

namespace Sys2Proof.Machine

/-! Registers -/

/-- `V[x]` (R14). -/
def State.readV (s : State) (x : Reg) : Byte := s.v[x.toNat]'x.isLt

/-- `V[x] <- b` (R14). No register is hardwired (R32). -/
def State.writeV (s : State) (x : Reg) (b : Byte) : State := { s with v := s.v.set x.toNat b x.isLt }

/-- `pc <- a` (R14). -/
def State.setPc (s : State) (a : Word) : State := { s with pc := a }

/-- `I <- a` (R14). -/
def State.setI (s : State) (a : Word) : State := { s with i := a }

/-- `DT <- b` (R265). -/
def State.setDt (s : State) (b : Byte) : State := { s with dt := b }

/-- `ST <- b` (R266). -/
def State.setSt (s : State) (b : Byte) : State := { s with st := b }

/-- The call stack replaced. -/
def State.setStack (s : State) (l : List Word) : State := { s with stack := l }

/-- The framebuffer replaced. -/
def State.setFb (s : State) (f : Framebuffer) : State := { s with fb := f }

/-- `dirty <- d` (R47). -/
def State.setDirty (s : State) (d : Bool) : State := { s with dirty := d }

/-- The key latch replaced. -/
def State.setKeys (s : State) (k : Vector Bool 16) : State := { s with keys := k }

/-- The memory replaced. -/
def State.setMem (s : State) (m : Memory) : State := { s with mem := m }

/-- What the driver call returns (log 17). -/
def State.setResult (s : State) (r : CallResult) : State := { s with result := r }

/-- The driver's calls to come (log 16). -/
def State.setCalls (s : State) (c : List DriverCall) : State := { s with calls := c }

/-- One more random byte drawn (log 9). -/
def State.countDraw (s : State) : State := { s with draws := s.draws + 1 }

/-- `draw rand`: the byte of the next draw (R14, D9). -/
def State.rand (s : State) : Byte := Config.randomByte s.draws

/-- Whether key `k` is pressed (R48). -/
def State.keyDown (s : State) (k : Fin 16) : Bool := s.keys[k.val]

/-- Skip the next instruction if `c`: `pc <- wrap16(pc + 2)` (R144, R148). -/
def State.skipIf (s : State) (c : Bool) : State := if c then s.setPc (s.pc + 2) else s

/-- `STACK_CAP` (R9). -/
def stackCap : Nat := 16

/-! Errors -/

/-- The call returns error `e`, and the sticky mark is set (R305, D22). -/
def State.fail (s : State) (e : OpError) : State := { s with result := .error e, errorSeen := true }

/-- `pc` after an execute-phase error, from the `pc` the instruction sees, `a + 2` (R305, D10). -/
def pcAfterError (pc : Word) : Word :=
  match Config.pcAfterExecError with
  | .advanced => pc
  | .restored => pc - 2

/-- The state after an error raised while an instruction executes: every element as the instruction
found it, but `pc` (R305). This is the one operation that takes an error; the block has no handler
and no return from one (R312, R313). -/
def State.afterExecError (s : State) (e : OpError) : State := (s.setPc (pcAfterError s.pc)).fail e

/-- `raise e` in the execute phase (R305). The error is a returned value and the machine goes on. -/
def State.raise (s : State) (e : OpError) : Answer := .next (s.afterExecError e)

/-- The numeric code of an error (R300, D27). -/
def OpError.code : OpError → Nat
  | .size => 1
  | .programCounter _ => 2
  | .indexRegister _ => 3
  | .opcode _ => 4
  | .stackEmpty => 5
  | .keyIndex => 6
  | .stackOverflow => 7
  | .undefinedOperand _ => 8

/-- The address `ProgramCounterError` carries: `pc` or `pc + 1` (D3). -/
def pcErrorAddr (pc : Word) : Nat := if Config.pcErrorCarriesNext pc then pc.toNat + 1 else pc.toNat

/-- The address `IndexRegisterError` carries: the first or the last of the range, without wrap (D4). -/
def idxErrorAddr (first last : Nat) : Nat := if Config.idxErrorCarriesLast first last then last else first

/-! Memory accesses of one byte and of ranges, in ascending order (R77, D26) -/

/-- `MemRead(a, 1)` (R14). -/
def State.readByte (s : State) (a : Nat) : Except Fault Byte :=
  if a < memSize then .ok (Memory.read s.mem a) else .error (.noSuchAddress a)

/-- `MemWrite(a, 1, b)` (R14). -/
def State.writeByte (s : State) (a : Nat) (b : Byte) : Except Fault State :=
  if a < memSize then .ok (s.setMem (Memory.write s.mem a b)) else .error (.noSuchAddress a)

/-- The `n` bytes from address `a` up. -/
def State.readBytes (s : State) (a : Nat) : Nat → Except Fault (List Byte)
  | 0 => .ok []
  | n + 1 =>
    match s.readByte a with
    | .error f => .error f
    | .ok b =>
      match State.readBytes s (a + 1) n with
      | .error f => .error f
      | .ok bs => .ok (b :: bs)

/-- The bytes written from address `a` up. -/
def State.writeBytes (s : State) (a : Nat) : List Byte → Except Fault State
  | [] => .ok s
  | b :: bs =>
    match s.writeByte a b with
    | .error f => .error f
    | .ok t => State.writeBytes t (a + 1) bs

/-- The answer of an access: the next state, or the fault it met. -/
def finish : Except Fault State → Answer
  | .ok t => .next t
  | .error f => .fault f

/-- The answer of an access that yields bytes: go on with them, or the fault it met. -/
def withBytes (r : Except Fault (List Byte)) (k : List Byte → Answer) : Answer :=
  match r with
  | .ok bs => k bs
  | .error f => .fault f

/-- Whether the `len` bytes at `I` stay inside `mem`, with unbounded arithmetic (R76); a range of no
bytes always does (R236). -/
def State.rangeInMem (s : State) (len : Nat) : Bool := len == 0 || s.i.toNat + (len - 1) ≤ 0xFFF

/-- Run `k` if the `len` bytes at `I` lie inside `mem`, else raise `IndexRegisterError` before any byte
moves (R76, R204, R205, R206, R235). -/
def State.withRange (s : State) (len : Nat) (k : Answer) : Answer :=
  if s.rangeInMem len then k
  else s.raise (.indexRegister (idxErrorAddr s.i.toNat (s.i.toNat + (len - 1))))

/-- `V[0]` to `V[n-1]`, in order. -/
def State.firstRegs (s : State) (n : Nat) : List Byte :=
  (List.range n).map fun k => s.readV (BitVec.ofNat 4 k)

/-- The bytes put into `V[k]`, `V[k+1]`, in order. -/
def State.putRegs (s : State) (k : Nat) : List Byte → State
  | [] => s
  | b :: bs => State.putRegs (s.writeV (BitVec.ofNat 4 k) b) (k + 1) bs

/-! Fetch -/

/-- Whether both bytes at `pc` lie inside `mem`, computed without wrap (R101). -/
def State.fetchInMem (s : State) : Bool := s.pc.toNat + 1 < memSize

/-- The state an instruction executes in: `pc` advanced by 2 (R103); the call returns `Ok` unless the
instruction raises (R110). -/
def State.fetched (s : State) : State := (s.setPc (s.pc + 2)).setResult .ok

/-- A fetch past memory: the error, and no other change (R101, R302). -/
def State.fetchError (s : State) : State := s.fail (.programCounter (pcErrorAddr s.pc))

end Sys2Proof.Machine
end

