-- ==== Sys2Proof/Machine/Operands.lean ====
section
/-! DEFINITION. Operand forms (spec/30_encoding.md R106, spec/00_scope.md R12, R13): immediates are unsigned, nothing is sign-extended, scaled or shifted. -/

namespace Sys2Proof.Machine

/-- `VF` is register 15 (R14, R32). -/
def regVF : Reg := 0xF

/-- `zext_16(nnn)` (R106). -/
def zext16 (nnn : Addr12) : Word := nnn.setWidth 16

/-- A byte read as a 16-bit value (R13). -/
def byteToWord (b : Byte) : Word := b.setWidth 16

/-- A key number read as a byte (R264). -/
def keyByte (k : Fin 16) : Byte := BitVec.ofNat 8 k.val

/-- The number of registers `Fx55` and `Fx65` move: `x + 1` (R205, R206). -/
def regCount (x : Reg) : Nat := x.toNat + 1

/-- The lowest pressed key, if any is pressed (R264). -/
def State.lowestKey (s : State) : Option (Fin 16) := (List.finRange 16).find? s.keyDown

/-- The three decimal digits of a byte: hundreds, tens, ones (R204). -/
def bcdDigits (b : Byte) : List Byte :=
  [BitVec.ofNat 8 (b.toNat / 100), BitVec.ofNat 8 (b.toNat / 10 % 10), BitVec.ofNat 8 (b.toNat % 10)]

end Sys2Proof.Machine
end

