-- ==== Sys2Proof/Machine/Flags.lean ====
section
/-! DEFINITION. The values `VF` takes as the flag register (spec/10_state.md R38, spec/41_alu.md R176 to R180, spec/43_display.md R237). -/

namespace Sys2Proof.Machine

/-- A flag value as a byte: 1 or 0. -/
def flagByte (c : Bool) : Byte := if c then 1 else 0

/-- Carry out of bit 7 of `a + b`, from the exact sum (R176). -/
def carryFlag (a b : Byte) : Byte := flagByte (0xFF < a.toNat + b.toNat)

/-- No-borrow flag of `a - b`: 1 exactly when `a >= b` (R177, R179). -/
def noBorrowFlag (a b : Byte) : Byte := flagByte (b.toNat ≤ a.toNat)

/-- The bit a right shift moves out, `b & 1` (R178). -/
def lowBitFlag (b : Byte) : Byte := b &&& 1

/-- The bit a left shift moves out, `(b & 0x80) >> 7` (R180). -/
def highBitFlag (b : Byte) : Byte := (b &&& 0x80) >>> 7

/-- `V[x] <- res` and then `VF <- flag`: the flag is written last, so it is what `VF` holds when
`x = 0xF` (R38, D12, log 12). -/
def State.writeWithFlag (s : State) (x : Reg) (res flag : Byte) : State :=
  (s.writeV x res).writeV regVF flag

end Sys2Proof.Machine
end

