-- ==== Sys2Proof/Machine/Alu.lean ====
section
/-! DEFINITION. Register and arithmetic instructions (spec/41_alu.md R170 to R182). Operands are read before any write (R15). -/

namespace Sys2Proof.Machine

/-- R170: `V[x] <- nn`. -/
def execLdImm (x : Reg) (nn : Byte) (s : State) : Answer := .next (s.writeV x nn)

/-- R171: `V[x] <- wrap8(V[x] + nn)`, no flag. -/
def execAddImm (x : Reg) (nn : Byte) (s : State) : Answer := .next (s.writeV x (s.readV x + nn))

/-- R172: `V[x] <- V[y]`. -/
def execLdReg (x y : Reg) (s : State) : Answer := .next (s.writeV x (s.readV y))

/-- R173: `V[x] <- V[x] | V[y]`, `VF` not reset. -/
def execOrReg (x y : Reg) (s : State) : Answer := .next (s.writeV x (s.readV x ||| s.readV y))

/-- R174: `V[x] <- V[x] & V[y]`, `VF` not reset. -/
def execAndReg (x y : Reg) (s : State) : Answer := .next (s.writeV x (s.readV x &&& s.readV y))

/-- R175: `V[x] <- V[x] ^ V[y]`, `VF` not reset. -/
def execXorReg (x y : Reg) (s : State) : Answer := .next (s.writeV x (s.readV x ^^^ s.readV y))

/-- R176: the sum modulo 256, `VF` the carry. -/
def execAddReg (x y : Reg) (s : State) : Answer :=
  .next (s.writeWithFlag x (s.readV x + s.readV y) (carryFlag (s.readV x) (s.readV y)))

/-- R177: `V[x] - V[y]` modulo 256, `VF` the no-borrow flag. -/
def execSubReg (x y : Reg) (s : State) : Answer :=
  .next (s.writeWithFlag x (s.readV x - s.readV y) (noBorrowFlag (s.readV x) (s.readV y)))

/-- R178: `V[y] >> 1`, `VF` the bit shifted out; the source is `V[y]` (C10, log 15). -/
def execShrReg (x y : Reg) (s : State) : Answer :=
  .next (s.writeWithFlag x (s.readV y >>> 1) (lowBitFlag (s.readV y)))

/-- R179: `V[y] - V[x]` modulo 256, `VF` the no-borrow flag. -/
def execSubnReg (x y : Reg) (s : State) : Answer :=
  .next (s.writeWithFlag x (s.readV y - s.readV x) (noBorrowFlag (s.readV y) (s.readV x)))

/-- R180: `(V[y] << 1) & 0xFF`, `VF` the bit shifted out; the source is `V[y]` (C10, log 15). -/
def execShlReg (x y : Reg) (s : State) : Answer :=
  .next (s.writeWithFlag x (s.readV y <<< 1) (highBitFlag (s.readV y)))

end Sys2Proof.Machine
end

