-- ==== Sys2Proof/Machine/Control.lean ====
section
/-! DEFINITION. Control transfer (spec/40_control.md R140 to R149). An instruction executes with `pc` already at the next instruction (R103). -/

namespace Sys2Proof.Machine

/-- R140: no effect. -/
def execNop (s : State) : Answer := .next s

/-- R141: `pc <- pop()`; an empty stack raises `StackEmptyError`. -/
def execRet (s : State) : Answer :=
  match s.stack with
  | [] => s.raise .stackEmpty
  | a :: rest => .next ((s.setStack rest).setPc a)

/-- R142: `pc <- zext_16(nnn)`. -/
def execJp (nnn : Addr12) (s : State) : Answer := .next (s.setPc (zext16 nnn))

/-- R143: push `pc`, then `pc <- zext_16(nnn)`; a full stack raises `StackOverflowError` (D11, log 11). -/
def execCall (nnn : Addr12) (s : State) : Answer :=
  if stackCap ≤ s.stack.length then s.raise .stackOverflow
  else .next ((s.setStack (s.pc :: s.stack)).setPc (zext16 nnn))

/-- R144: skip if `V[x] = nn`. -/
def execSeImm (x : Reg) (nn : Byte) (s : State) : Answer := .next (s.skipIf (s.readV x == nn))

/-- R145: skip if `V[x] ≠ nn`. -/
def execSneImm (x : Reg) (nn : Byte) (s : State) : Answer := .next (s.skipIf (s.readV x != nn))

/-- R146: skip if `V[x] = V[y]`. -/
def execSeReg (x y : Reg) (s : State) : Answer := .next (s.skipIf (s.readV x == s.readV y))

/-- R147: skip if `V[x] ≠ V[y]`. -/
def execSneReg (x y : Reg) (s : State) : Answer := .next (s.skipIf (s.readV x != s.readV y))

end Sys2Proof.Machine
end

