-- ==== Sys2Proof/Machine/Display.lean ====
section
/-! DEFINITION. The framebuffer, clear and sprite draw (spec/43_display.md R230 to R240). -/

namespace Sys2Proof.Machine

/-- `fb[px, py]` (R230). -/
def Framebuffer.pixel (f : Framebuffer) (px : Fin 64) (py : Fin 32) : Bool := (f[py.val])[px.val]

/-- `fb[px, py] <- not fb[px, py]` (R232). -/
def Framebuffer.toggle (f : Framebuffer) (px : Fin 64) (py : Fin 32) : Framebuffer :=
  f.set py.val ((f[py.val]).set px.val (!f.pixel px py))

/-- Every pixel false (R231). -/
def Framebuffer.blank : Framebuffer := Vector.replicate 32 (Vector.replicate 64 false)

/-- The row-major array, element `py * 64 + px` (R230, R330). -/
def Framebuffer.view (f : Framebuffer) : Vector Bool 2048 :=
  Vector.ofFn fun k : Fin 2048 =>
    f.pixel ⟨k.val % 64, Nat.mod_lt _ (by decide)⟩ ⟨k.val / 64, by have := k.isLt; omega⟩

/-- Columns wrap modulo 64 (R233). -/
def wrapCol (c : Nat) : Fin 64 := ⟨c % 64, Nat.mod_lt _ (by decide)⟩

/-- Rows wrap modulo 32 (R233, C2, log 27). -/
def wrapRow (r : Nat) : Fin 32 := ⟨r % 32, Nat.mod_lt _ (by decide)⟩

/-- The sprite bit of column offset `col`: bit 7 is the leftmost (R234). -/
def spriteBit (b : Byte) (col : Nat) : Bool := b.getLsbD (7 - col)

/-- A framebuffer being drawn on, and whether a lit pixel has been hit so far (R232, R237). -/
abbrev Canvas := Framebuffer × Bool

/-- One affected cell: note the collision, toggle the pixel (R232). -/
def drawCell (px : Fin 64) (py : Fin 32) (c : Canvas) : Canvas :=
  (c.1.toggle px py, c.2 || c.1.pixel px py)

/-- One sprite row at screen row `py`, from column `x0` (R232, R233). -/
def drawRow (x0 : Nat) (py : Fin 32) (b : Byte) (c : Canvas) : Canvas :=
  (List.range 8).foldl
    (fun acc col => if spriteBit b col then drawCell (wrapCol (x0 + col)) py acc else acc) c

/-- The sprite rows, downward from `y0` (R232, R233). -/
def drawRows (x0 y0 : Nat) : List Byte → Canvas → Canvas
  | [], c => c
  | b :: bs, c => drawRows x0 (y0 + 1) bs (drawRow x0 (wrapRow y0) b c)

/-- The draw of the rows `bs` at `V[x]`, `V[y]`: the coordinates are read before `VF` is written
(R239), `dirty` is set whatever changed (R238). -/
def State.drawSprite (s : State) (x y : Reg) (bs : List Byte) : State :=
  let c := drawRows (s.readV x).toNat (s.readV y).toNat bs (s.fb, false)
  ((s.setFb c.1).writeV regVF (flagByte c.2)).setDirty true

/-- R231: clear the screen. -/
def execCls (s : State) : Answer := .next ((s.setFb Framebuffer.blank).setDirty true)

/-- R232: draw `n` rows from `I`; the range check is that of R235 (D5, log 5). -/
def execDrw (x y : Reg) (n : Nibble) (s : State) : Answer :=
  s.withRange n.toNat
    (withBytes (s.readBytes s.i.toNat n.toNat) fun bs => .next (s.drawSprite x y bs))

end Sys2Proof.Machine
end

