-- ==== Sys2Proof/Syntax.lean ====
section
/-! DEFINITION. The instructions: one constructor per row of spec/opcode_table.json, in the table's order (spec/30_encoding.md R107). A field holds exactly the values its bits can hold, so every term is an instruction the encoding has. -/

namespace Sys2Proof

/-- The 35 instructions of R107. `x` and `y` are register numbers, `nn` a byte, `nnn` a 12-bit
value, `n` a 4-bit count (R104, R106). -/
inductive Instr where
  /-- `0000` NOP (R140) -/
  | nop
  /-- `00E0` CLS (R231) -/
  | cls
  /-- `00EE` RET (R141) -/
  | ret
  /-- `1nnn` JP nnn (R142) -/
  | jp (nnn : Addr12)
  /-- `2nnn` CALL nnn (R143) -/
  | call (nnn : Addr12)
  /-- `3xnn` SE Vx, nn (R144) -/
  | seImm (x : Reg) (nn : Byte)
  /-- `4xnn` SNE Vx, nn (R145) -/
  | sneImm (x : Reg) (nn : Byte)
  /-- `5xy0` SE Vx, Vy (R146) -/
  | seReg (x y : Reg)
  /-- `6xnn` LD Vx, nn (R170) -/
  | ldImm (x : Reg) (nn : Byte)
  /-- `7xnn` ADD Vx, nn (R171) -/
  | addImm (x : Reg) (nn : Byte)
  /-- `8xy0` LD Vx, Vy (R172) -/
  | ldReg (x y : Reg)
  /-- `8xy1` OR Vx, Vy (R173) -/
  | orReg (x y : Reg)
  /-- `8xy2` AND Vx, Vy (R174) -/
  | andReg (x y : Reg)
  /-- `8xy3` XOR Vx, Vy (R175) -/
  | xorReg (x y : Reg)
  /-- `8xy4` ADD Vx, Vy (R176) -/
  | addReg (x y : Reg)
  /-- `8xy5` SUB Vx, Vy (R177) -/
  | subReg (x y : Reg)
  /-- `8xy6` SHR Vx, Vy (R178) -/
  | shrReg (x y : Reg)
  /-- `8xy7` SUBN Vx, Vy (R179) -/
  | subnReg (x y : Reg)
  /-- `8xyE` SHL Vx, Vy (R180) -/
  | shlReg (x y : Reg)
  /-- `9xy0` SNE Vx, Vy (R147) -/
  | sneReg (x y : Reg)
  /-- `Annn` LD I, nnn (R200) -/
  | ldI (nnn : Addr12)
  /-- `Bnnn` LDI V0, nnn (R201) -/
  | ldiV0 (nnn : Addr12)
  /-- `Cxnn` RND Vx, nn (R260) -/
  | rnd (x : Reg) (nn : Byte)
  /-- `Dxyn` DRW Vx, Vy, n (R232) -/
  | drw (x y : Reg) (n : Nibble)
  /-- `Ex9E` SKP Vx (R261) -/
  | skp (x : Reg)
  /-- `ExA1` SKNP Vx (R262) -/
  | sknp (x : Reg)
  /-- `Fx07` LD Vx, DT (R263) -/
  | ldVxDt (x : Reg)
  /-- `Fx0A` LD Vx, K (R264) -/
  | ldVxK (x : Reg)
  /-- `Fx15` LD DT, Vx (R265) -/
  | ldDtVx (x : Reg)
  /-- `Fx18` LD ST, Vx (R266) -/
  | ldStVx (x : Reg)
  /-- `Fx1E` ADD I, Vx (R202) -/
  | addI (x : Reg)
  /-- `Fx29` LD F, Vx (R203) -/
  | ldF (x : Reg)
  /-- `Fx33` LD B, Vx (R204) -/
  | ldB (x : Reg)
  /-- `Fx55` LD [I], Vx (R205) -/
  | storeRegs (x : Reg)
  /-- `Fx65` LD Vx, [I] (R206) -/
  | loadRegs (x : Reg)
deriving DecidableEq, Repr

end Sys2Proof
end

