-- ==== Sys2Proof/WellFormed.lean ====
section
/-! DEFINITION. Which 16-bit words are instructions, said twice from the spec: the mask and match rows of spec/30_encoding.md R107 (`Instr.row`, `opcodeRows`), and the opcode map in prose of R108 (`WellFormed.word`), each group a check of its own.
A term of `Instr` needs no check: its fields hold exactly what the encoding's fields hold. -/

namespace Sys2Proof

/-- One row of R107: a word belongs to it when its bits under `mask` are `value`. -/
structure OpcodeRow where
  mnemonic : String
  mask : Word
  value : Word
deriving DecidableEq, Repr

/-- `w & mask == match` (R107). -/
def OpcodeRow.admits (r : OpcodeRow) (w : Word) : Bool := w &&& r.mask == r.value

/-- The row of R107 an instruction belongs to. -/
def Instr.row : Instr → OpcodeRow
  | .nop => ⟨"NOP", 0xFFFF, 0x0000⟩
  | .cls => ⟨"CLS", 0xFFFF, 0x00E0⟩
  | .ret => ⟨"RET", 0xFFFF, 0x00EE⟩
  | .jp _ => ⟨"JP_nnn", 0xF000, 0x1000⟩
  | .call _ => ⟨"CALL_nnn", 0xF000, 0x2000⟩
  | .seImm _ _ => ⟨"SE_Vx__nn", 0xF000, 0x3000⟩
  | .sneImm _ _ => ⟨"SNE_Vx__nn", 0xF000, 0x4000⟩
  | .seReg _ _ => ⟨"SE_Vx__Vy", 0xF00F, 0x5000⟩
  | .ldImm _ _ => ⟨"LD_Vx__nn", 0xF000, 0x6000⟩
  | .addImm _ _ => ⟨"ADD_Vx__nn", 0xF000, 0x7000⟩
  | .ldReg _ _ => ⟨"LD_Vx__Vy", 0xF00F, 0x8000⟩
  | .orReg _ _ => ⟨"OR_Vx__Vy", 0xF00F, 0x8001⟩
  | .andReg _ _ => ⟨"AND_Vx__Vy", 0xF00F, 0x8002⟩
  | .xorReg _ _ => ⟨"XOR_Vx__Vy", 0xF00F, 0x8003⟩
  | .addReg _ _ => ⟨"ADD_Vx__Vy", 0xF00F, 0x8004⟩
  | .subReg _ _ => ⟨"SUB_Vx__Vy", 0xF00F, 0x8005⟩
  | .shrReg _ _ => ⟨"SHR_Vx__Vy", 0xF00F, 0x8006⟩
  | .subnReg _ _ => ⟨"SUBN_Vx__Vy", 0xF00F, 0x8007⟩
  | .shlReg _ _ => ⟨"SHL_Vx__Vy", 0xF00F, 0x800E⟩
  | .sneReg _ _ => ⟨"SNE_Vx__Vy", 0xF00F, 0x9000⟩
  | .ldI _ => ⟨"LD_I__nnn", 0xF000, 0xA000⟩
  | .ldiV0 _ => ⟨"LDI_V0__nnn", 0xF000, 0xB000⟩
  | .rnd _ _ => ⟨"RND_Vx__nn", 0xF000, 0xC000⟩
  | .drw _ _ _ => ⟨"DRW_Vx__Vy__n", 0xF000, 0xD000⟩
  | .skp _ => ⟨"SKP_Vx", 0xF0FF, 0xE09E⟩
  | .sknp _ => ⟨"SKNP_Vx", 0xF0FF, 0xE0A1⟩
  | .ldVxDt _ => ⟨"LD_Vx__DT", 0xF0FF, 0xF007⟩
  | .ldVxK _ => ⟨"LD_Vx__K", 0xF0FF, 0xF00A⟩
  | .ldDtVx _ => ⟨"LD_DT__Vx", 0xF0FF, 0xF015⟩
  | .ldStVx _ => ⟨"LD_ST__Vx", 0xF0FF, 0xF018⟩
  | .addI _ => ⟨"ADD_I__Vx", 0xF0FF, 0xF01E⟩
  | .ldF _ => ⟨"LD_F__Vx", 0xF0FF, 0xF029⟩
  | .ldB _ => ⟨"LD_B__Vx", 0xF0FF, 0xF033⟩
  | .storeRegs _ => ⟨"LD__I___Vx", 0xF0FF, 0xF055⟩
  | .loadRegs _ => ⟨"LD_Vx___I", 0xF0FF, 0xF065⟩

/-- Rows of the groups 0 to 7. -/
def opcodeRowsLow : List OpcodeRow :=
  [ ⟨"NOP", 0xFFFF, 0x0000⟩,
    ⟨"CLS", 0xFFFF, 0x00E0⟩,
    ⟨"RET", 0xFFFF, 0x00EE⟩,
    ⟨"JP_nnn", 0xF000, 0x1000⟩,
    ⟨"CALL_nnn", 0xF000, 0x2000⟩,
    ⟨"SE_Vx__nn", 0xF000, 0x3000⟩,
    ⟨"SNE_Vx__nn", 0xF000, 0x4000⟩,
    ⟨"SE_Vx__Vy", 0xF00F, 0x5000⟩,
    ⟨"LD_Vx__nn", 0xF000, 0x6000⟩,
    ⟨"ADD_Vx__nn", 0xF000, 0x7000⟩ ]

/-- Rows of the groups 8 to D. -/
def opcodeRowsMid : List OpcodeRow :=
  [ ⟨"LD_Vx__Vy", 0xF00F, 0x8000⟩,
    ⟨"OR_Vx__Vy", 0xF00F, 0x8001⟩,
    ⟨"AND_Vx__Vy", 0xF00F, 0x8002⟩,
    ⟨"XOR_Vx__Vy", 0xF00F, 0x8003⟩,
    ⟨"ADD_Vx__Vy", 0xF00F, 0x8004⟩,
    ⟨"SUB_Vx__Vy", 0xF00F, 0x8005⟩,
    ⟨"SHR_Vx__Vy", 0xF00F, 0x8006⟩,
    ⟨"SUBN_Vx__Vy", 0xF00F, 0x8007⟩,
    ⟨"SHL_Vx__Vy", 0xF00F, 0x800E⟩,
    ⟨"SNE_Vx__Vy", 0xF00F, 0x9000⟩,
    ⟨"LD_I__nnn", 0xF000, 0xA000⟩,
    ⟨"LDI_V0__nnn", 0xF000, 0xB000⟩,
    ⟨"RND_Vx__nn", 0xF000, 0xC000⟩,
    ⟨"DRW_Vx__Vy__n", 0xF000, 0xD000⟩ ]

/-- Rows of the groups E and F. -/
def opcodeRowsHigh : List OpcodeRow :=
  [ ⟨"SKP_Vx", 0xF0FF, 0xE09E⟩,
    ⟨"SKNP_Vx", 0xF0FF, 0xE0A1⟩,
    ⟨"LD_Vx__DT", 0xF0FF, 0xF007⟩,
    ⟨"LD_Vx__K", 0xF0FF, 0xF00A⟩,
    ⟨"LD_DT__Vx", 0xF0FF, 0xF015⟩,
    ⟨"LD_ST__Vx", 0xF0FF, 0xF018⟩,
    ⟨"ADD_I__Vx", 0xF0FF, 0xF01E⟩,
    ⟨"LD_F__Vx", 0xF0FF, 0xF029⟩,
    ⟨"LD_B__Vx", 0xF0FF, 0xF033⟩,
    ⟨"LD__I___Vx", 0xF0FF, 0xF055⟩,
    ⟨"LD_Vx___I", 0xF0FF, 0xF065⟩ ]

/-- The whole table of R107, 35 rows. -/
def opcodeRows : List OpcodeRow := opcodeRowsLow ++ opcodeRowsMid ++ opcodeRowsHigh

/-- Group `0` (R108): only the three whole words. -/
def WellFormed.group0 (w : Word) : Bool := w == 0x0000 || w == 0x00E0 || w == 0x00EE

/-- Groups `5` and `9` (R108): the lowest nibble is 0. -/
def WellFormed.lastNibbleZero (w : Word) : Bool := w.extractLsb' 0 4 == 0

/-- Group `8` (R108): the lowest nibble is 0 to 7 or E. -/
def WellFormed.group8 (w : Word) : Bool :=
  (w.extractLsb' 0 4).toNat ≤ 7 || w.extractLsb' 0 4 == 0xE

/-- Group `E` (R108): the low byte is 9E or A1. -/
def WellFormed.groupE (w : Word) : Bool := w.extractLsb' 0 8 == 0x9E || w.extractLsb' 0 8 == 0xA1

/-- Group `F` (R108): the low byte is one of nine. -/
def WellFormed.groupF (w : Word) : Bool :=
  [0x07, 0x0A, 0x15, 0x18, 0x1E, 0x29, 0x33, 0x55, 0x65].contains (w.extractLsb' 0 8)

/-- R108, R109: the word is an instruction. In the other groups the major opcode alone decides. -/
def WellFormed.word (w : Word) : Bool :=
  match (w.extractLsb' 12 4).toNat with
  | 0x0 => WellFormed.group0 w
  | 0x5 => WellFormed.lastNibbleZero w
  | 0x8 => WellFormed.group8 w
  | 0x9 => WellFormed.lastNibbleZero w
  | 0xE => WellFormed.groupE w
  | 0xF => WellFormed.groupF w
  | _ => true

end Sys2Proof
end

