-- ==== Sys2Proof/Decode.lean ====
section
/-! DEFINITION. Decode and encode (spec/30_encoding.md R102, R104 to R109). -/

namespace Sys2Proof

/-- What a word decodes to: an instruction, or an illegal word, named by itself (R109). -/
inductive Decoded where
  | instr (i : Instr)
  | illegal (w : Word)
deriving DecidableEq, Repr

/-- `n4 = w[15:12]`, the major opcode (R104). -/
def fieldN4 (w : Word) : BitVec 4 := w.extractLsb' 12 4

/-- `x = w[11:8]` (R104). -/
def fieldX (w : Word) : Reg := w.extractLsb' 8 4

/-- `y = w[7:4]` (R104). -/
def fieldY (w : Word) : Reg := w.extractLsb' 4 4

/-- `n = w[3:0]` (R104). -/
def fieldN (w : Word) : Nibble := w.extractLsb' 0 4

/-- `nn = w[7:0]` (R104). -/
def fieldNN (w : Word) : Byte := w.extractLsb' 0 8

/-- `nnn = w[11:0]` (R104). -/
def fieldNNN (w : Word) : Addr12 := w.extractLsb' 0 12

/-- Group `0`: three whole words (R108). -/
def decodeGroup0 (w : Word) : Decoded :=
  if w = 0x0000 then .instr .nop
  else if w = 0x00E0 then .instr .cls
  else if w = 0x00EE then .instr .ret
  else .illegal w

/-- Group `8`: the low nibble selects (R108). -/
def decodeGroup8 (w : Word) : Decoded :=
  match (fieldN w).toNat with
  | 0x0 => .instr (.ldReg (fieldX w) (fieldY w))
  | 0x1 => .instr (.orReg (fieldX w) (fieldY w))
  | 0x2 => .instr (.andReg (fieldX w) (fieldY w))
  | 0x3 => .instr (.xorReg (fieldX w) (fieldY w))
  | 0x4 => .instr (.addReg (fieldX w) (fieldY w))
  | 0x5 => .instr (.subReg (fieldX w) (fieldY w))
  | 0x6 => .instr (.shrReg (fieldX w) (fieldY w))
  | 0x7 => .instr (.subnReg (fieldX w) (fieldY w))
  | 0xE => .instr (.shlReg (fieldX w) (fieldY w))
  | _ => .illegal w

/-- Group `E`: the low byte selects (R108). -/
def decodeGroupE (w : Word) : Decoded :=
  if fieldNN w = 0x9E then .instr (.skp (fieldX w))
  else if fieldNN w = 0xA1 then .instr (.sknp (fieldX w))
  else .illegal w

/-- Group `F`: the low byte selects (R108). -/
def decodeGroupF (w : Word) : Decoded :=
  if fieldNN w = 0x07 then .instr (.ldVxDt (fieldX w))
  else if fieldNN w = 0x0A then .instr (.ldVxK (fieldX w))
  else if fieldNN w = 0x15 then .instr (.ldDtVx (fieldX w))
  else if fieldNN w = 0x18 then .instr (.ldStVx (fieldX w))
  else if fieldNN w = 0x1E then .instr (.addI (fieldX w))
  else if fieldNN w = 0x29 then .instr (.ldF (fieldX w))
  else if fieldNN w = 0x33 then .instr (.ldB (fieldX w))
  else if fieldNN w = 0x55 then .instr (.storeRegs (fieldX w))
  else if fieldNN w = 0x65 then .instr (.loadRegs (fieldX w))
  else .illegal w

/-- Dispatch on `n4` first (R107, R108); total, an illegal word is returned by name (R109). -/
def decode (w : Word) : Decoded :=
  match (fieldN4 w).toNat with
  | 0x0 => decodeGroup0 w
  | 0x1 => .instr (.jp (fieldNNN w))
  | 0x2 => .instr (.call (fieldNNN w))
  | 0x3 => .instr (.seImm (fieldX w) (fieldNN w))
  | 0x4 => .instr (.sneImm (fieldX w) (fieldNN w))
  | 0x5 => if fieldN w = 0 then .instr (.seReg (fieldX w) (fieldY w)) else .illegal w
  | 0x6 => .instr (.ldImm (fieldX w) (fieldNN w))
  | 0x7 => .instr (.addImm (fieldX w) (fieldNN w))
  | 0x8 => decodeGroup8 w
  | 0x9 => if fieldN w = 0 then .instr (.sneReg (fieldX w) (fieldY w)) else .illegal w
  | 0xA => .instr (.ldI (fieldNNN w))
  | 0xB => .instr (.ldiV0 (fieldNNN w))
  | 0xC => .instr (.rnd (fieldX w) (fieldNN w))
  | 0xD => .instr (.drw (fieldX w) (fieldY w) (fieldN w))
  | 0xE => decodeGroupE w
  | 0xF => decodeGroupF w
  | _ => .illegal w

/-- The big-endian word of two bytes: the byte at the lower address is bits 15 to 8 (R72, R102). -/
def wordOfBytes (first second : Byte) : Word := first ++ second

/-- The byte at the lower address (R72). -/
def highByte (w : Word) : Byte := w.extractLsb' 8 8

/-- The byte at the higher address (R72). -/
def lowByte (w : Word) : Byte := w.extractLsb' 0 8

/-- Decode the two bytes of an instruction, the one at the lower address first. -/
def decodeBytes (first second : Byte) : Decoded := decode (wordOfBytes first second)

/-- Format `NNN`: major opcode and 12 bits (R105). -/
def formatNNN (n4 : BitVec 4) (nnn : Addr12) : Word := n4 ++ nnn

/-- Format `XNN`: major opcode, `x`, a byte (R105); format `XK` is the same with a function byte. -/
def formatXNN (n4 : BitVec 4) (x : Reg) (nn : Byte) : Word := n4 ++ (x ++ nn)

/-- Format `XYN`: major opcode, `x`, `y`, a nibble (R105); format `XY` is the same with a function nibble. -/
def formatXYN (n4 : BitVec 4) (x y : Reg) (n : Nibble) : Word := n4 ++ (x ++ (y ++ n))

/-- The word of an instruction, from the formats of R105 and the fixed fields of R107. -/
def encode : Instr → Word
  | .nop => 0x0000
  | .cls => 0x00E0
  | .ret => 0x00EE
  | .jp nnn => formatNNN 0x1 nnn
  | .call nnn => formatNNN 0x2 nnn
  | .seImm x nn => formatXNN 0x3 x nn
  | .sneImm x nn => formatXNN 0x4 x nn
  | .seReg x y => formatXYN 0x5 x y 0x0
  | .ldImm x nn => formatXNN 0x6 x nn
  | .addImm x nn => formatXNN 0x7 x nn
  | .ldReg x y => formatXYN 0x8 x y 0x0
  | .orReg x y => formatXYN 0x8 x y 0x1
  | .andReg x y => formatXYN 0x8 x y 0x2
  | .xorReg x y => formatXYN 0x8 x y 0x3
  | .addReg x y => formatXYN 0x8 x y 0x4
  | .subReg x y => formatXYN 0x8 x y 0x5
  | .shrReg x y => formatXYN 0x8 x y 0x6
  | .subnReg x y => formatXYN 0x8 x y 0x7
  | .shlReg x y => formatXYN 0x8 x y 0xE
  | .sneReg x y => formatXYN 0x9 x y 0x0
  | .ldI nnn => formatNNN 0xA nnn
  | .ldiV0 nnn => formatNNN 0xB nnn
  | .rnd x nn => formatXNN 0xC x nn
  | .drw x y n => formatXYN 0xD x y n
  | .skp x => formatXNN 0xE x 0x9E
  | .sknp x => formatXNN 0xE x 0xA1
  | .ldVxDt x => formatXNN 0xF x 0x07
  | .ldVxK x => formatXNN 0xF x 0x0A
  | .ldDtVx x => formatXNN 0xF x 0x15
  | .ldStVx x => formatXNN 0xF x 0x18
  | .addI x => formatXNN 0xF x 0x1E
  | .ldF x => formatXNN 0xF x 0x29
  | .ldB x => formatXNN 0xF x 0x33
  | .storeRegs x => formatXNN 0xF x 0x55
  | .loadRegs x => formatXNN 0xF x 0x65

/-- The word a table row's bits `w` stand for: the lowest `nbits` bits of `w`, every bit above them 0.
The table numbers bits as R11 does, bit 0 the least significant of the one 16-bit word. -/
def tableWord (nbits w : Nat) : Word := BitVec.ofNat 16 (w % 2 ^ nbits)

/-- The instruction the decoder reads from the bytes of `tableWord nbits w`, high byte at the lower
address (R72); none where the word is illegal. -/
def decodeTableWord (nbits w : Nat) : Option Instr :=
  match decodeBytes (highByte (tableWord nbits w)) (lowByte (tableWord nbits w)) with
  | .instr i => some i
  | .illegal _ => none

end Sys2Proof
end

