-- ==== Sys2Proof/Machine/Index.lean ====
section
/-! DEFINITION. The index register and the transfers between registers and `mem` at `I` (spec/42_index_memory.md R200 to R207). -/

namespace Sys2Proof.Machine

/-- `FONT_BASE` (R9). -/
def fontBase : Nat := 0x000

/-- The address of the glyph of digit `d`, `FONT_BASE + 5 * d` (R203). -/
def glyphAddr (d : Byte) : Word := BitVec.ofNat 16 (fontBase + d.toNat * 5)

/-- Whether `Fx29` raises on the operand `d`: only for `d ≥ 16`, and then as the open choice says (D8, log 8). -/
def digitRejected (d : Byte) : Bool := 16 ≤ d.toNat && Config.fx29Policy == .fault

/-- R200: `I <- zext_16(nnn)`. -/
def execLdI (nnn : Addr12) (s : State) : Answer := .next (s.setI (zext16 nnn))

/-- R201: `I <- wrap16(zext_16(nnn) + V[0])`; `pc` keeps `a + 2` (C7, log 15). -/
def execLdiV0 (nnn : Addr12) (s : State) : Answer :=
  .next (s.setI (zext16 nnn + byteToWord (s.readV 0)))

/-- R202: `I <- wrap16(I + V[x])`, no flag. -/
def execAddI (x : Reg) (s : State) : Answer := .next (s.setI (s.i + byteToWord (s.readV x)))

/-- R203: `I <- FONT_BASE + V[x] * 5`. -/
def execLdF (x : Reg) (s : State) : Answer :=
  if digitRejected (s.readV x) then s.raise (.undefinedOperand (encode (.ldF x)))
  else .next (s.setI (glyphAddr (s.readV x)))

/-- R204: the three digits of `V[x]` at `I`, `I+1`, `I+2`; `I` is not changed (D6, log 6). -/
def execLdB (x : Reg) (s : State) : Answer :=
  s.withRange 3 (finish (s.writeBytes s.i.toNat (bcdDigits (s.readV x))))

/-- R205: `V[0]` to `V[x]` stored at `I` up, then `I <- wrap16(I + x + 1)`. -/
def execStoreRegs (x : Reg) (s : State) : Answer :=
  s.withRange (regCount x)
    (finish ((s.setI (s.i + BitVec.ofNat 16 (regCount x))).writeBytes s.i.toNat (s.firstRegs (regCount x))))

/-- R206: `V[0]` to `V[x]` loaded from `I` up, then `I <- wrap16(I + x + 1)`. -/
def execLoadRegs (x : Reg) (s : State) : Answer :=
  s.withRange (regCount x)
    (withBytes (s.readBytes s.i.toNat (regCount x)) fun bs =>
      .next ((s.putRegs 0 bs).setI (s.i + BitVec.ofNat 16 (regCount x))))

end Sys2Proof.Machine
end

