-- ==== Sys2Proof/Machine/Input.lean ====
section
/-! DEFINITION. Random byte, keys and timers (spec/44_random_keys_timers.md R260 to R268). -/

namespace Sys2Proof.Machine

/-- Go on with the key `b` names; a byte that names no key raises `UndefinedOperandError` with the
instruction's word (R261, R262, R309; D7, log 7). -/
def State.withKey (s : State) (b : Byte) (w : Word) (k : Fin 16 → Answer) : Answer :=
  if h : b.toNat < 16 then k ⟨b.toNat, h⟩ else s.raise (.undefinedOperand w)

/-- R260: `V[x] <- (draw rand) & nn`. -/
def execRnd (x : Reg) (nn : Byte) (s : State) : Answer := .next ((s.writeV x (s.rand &&& nn)).countDraw)

/-- R261: skip if key `V[x]` is pressed. -/
def execSkp (x : Reg) (s : State) : Answer :=
  s.withKey (s.readV x) (encode (.skp x)) fun k => .next (s.skipIf (s.keyDown k))

/-- R262: skip if key `V[x]` is not pressed. -/
def execSknp (x : Reg) (s : State) : Answer :=
  s.withKey (s.readV x) (encode (.sknp x)) fun k => .next (s.skipIf (!s.keyDown k))

/-- R263: `V[x] <- DT`. -/
def execLdVxDt (x : Reg) (s : State) : Answer := .next (s.writeV x s.dt)

/-- R264: the lowest pressed key into `V[x]`; with none pressed, `pc` goes back to this instruction. -/
def execLdVxK (x : Reg) (s : State) : Answer :=
  match s.lowestKey with
  | none => .next (s.setPc (s.pc - 2))
  | some k => .next (s.writeV x (keyByte k))

/-- R265: `DT <- V[x]`. -/
def execLdDtVx (x : Reg) (s : State) : Answer := .next (s.setDt (s.readV x))

/-- R266: `ST <- V[x]`. -/
def execLdStVx (x : Reg) (s : State) : Answer := .next (s.setSt (s.readV x))

end Sys2Proof.Machine
end

