-- ==== Sys2Proof/Machine/Driver.lean ====
section
/-! DEFINITION. The driver's operations other than `cycle()` (spec/60_exceptions.md R320 to R336, spec/70_reset_and_hazards.md R350 to R357). -/

namespace Sys2Proof.Machine

/-- `PROGRAM_BASE` (R9). -/
def programBase : Nat := 0x200

/-- `LOAD_CAP` (R9). -/
def loadCap : Nat := 0x0A00

/-- `reset()`: every element of R30 as R51 says (R350). The model's own `calls`, `errorSeen` and
`draws` go on (log 30). -/
def State.resetCall (s : State) : State :=
  { State.reset with calls := s.calls, errorSeen := s.errorSeen, draws := s.draws }

/-- `load(bytes)`: the bytes from `0x200` up, or `SizeError` and no change (R301, R355, R357). -/
def State.loadCall (s : State) (bytes : List Byte) : Answer :=
  if loadCap < bytes.length then .next (s.fail .size)
  else finish ((s.setResult .ok).writeBytes programBase bytes)

/-- A timer after a tick: one less, and 0 stays 0 (R320). -/
def tickByte (b : Byte) : Byte := if 0 < b.toNat then b - 1 else b

/-- `tick_timers()` (R320). -/
def State.tickTimers (s : State) : State :=
  ((s.setDt (tickByte s.dt)).setSt (tickByte s.st)).setResult .ok

/-- The tick takes `ST` from 2 to 1: `soundSignal` of R322, a predicate over the state before the tick
and the state after it (D18, log 19). -/
def soundSignal (before after : State) : Bool := before.st == 2 && after.st == 1

/-- `set_key(index, pressed)` (R325); an index of 16 or more is `KeyIndexError` and no change (R308). -/
def State.setKey (s : State) (index : Nat) (pressed : Bool) : State :=
  if h : index < 16 then (s.setKeys (s.keys.set index pressed)).setResult .ok
  else s.fail .keyIndex

/-- `framebuffer()`: returns the view, changes nothing else (R330). -/
def State.readFramebuffer (s : State) : State := s.setResult (.view s.fb.view)

/-- The dirty query: returns `dirty`, changes nothing else (R331). -/
def State.readDirty (s : State) : State := s.setResult (.dirtyFlag s.dirty)

/-- The dirty clear (R332). -/
def State.clearDirty (s : State) : State := (s.setDirty false).setResult .ok

end Sys2Proof.Machine
end

