-- ==== Sys2Proof/Machine/Cycle.lean ====
section
/-! DEFINITION. `cycle()` (spec/30_encoding.md R101 to R110) and the driver's calls (spec/60_exceptions.md R335, R336). -/

namespace Sys2Proof.Machine

/-- The word the bytes at `pc` and `pc + 1` make (R102). -/
def State.wordAtPc (s : State) : Word :=
  wordOfBytes (Memory.read s.mem s.pc.toNat) (Memory.read s.mem (s.pc.toNat + 1))

/-- Execute what was decoded; an illegal word raises `OpcodeError` with itself (R109, R304). -/
def State.dispatch (s : State) (d : Decoded) : Answer :=
  match d with
  | .instr i => exec i s
  | .illegal w => s.raise (.opcode w)

/-- `cycle()`: bounds check, read, advance, dispatch, in this order (R110, R310). -/
def State.cycle (s : State) : Answer :=
  if s.fetchInMem then
    match s.readByte s.pc.toNat with
    | .error f => .fault f
    | .ok first =>
      match s.readByte (s.pc.toNat + 1) with
      | .error f => .fault f
      | .ok second => s.fetched.dispatch (decodeBytes first second)
  else .next s.fetchError

/-- One driver call, run to its end (R335, R336). -/
def State.perform (s : State) (c : DriverCall) : Answer :=
  match c with
  | .reset => .next s.resetCall
  | .load bytes => s.loadCall bytes
  | .cycle => s.cycle
  | .tickTimers => .next s.tickTimers
  | .setKey index pressed => .next (s.setKey index pressed)
  | .framebuffer => .next s.readFramebuffer
  | .queryDirty => .next s.readDirty
  | .clearDirty => .next s.clearDirty

/-- The driver's next call: the first one listed, and `cycle()` when none is listed (log 16). -/
def State.nextCall (s : State) : DriverCall × State :=
  match s.calls with
  | [] => (.cycle, s)
  | c :: rest => (c, s.setCalls rest)

/-- The state with an instruction's bytes where the next step fetches: at `pc`, the high byte first
(R72). No driver call stands before that fetch; a `pc` that no fetch can use goes to the entry
point. -/
def State.placeAtFetch (s : State) (w : Word) : State :=
  let p := if s.fetchInMem then s else s.setPc 0x200
  (p.setMem
    (Memory.write (Memory.write p.mem p.pc.toNat (highByte w)) (p.pc.toNat + 1) (lowByte w))).setCalls []

end Sys2Proof.Machine
end

