-- ==== Sys2Proof/Machine/Step.lean ====
section
/-! DEFINITION. One step is one driver call (spec/60_exceptions.md R335): `cycle()`, one instruction, unless the state lists another call first. -/

namespace Sys2Proof.Machine

/-- The driver's next call on the block. -/
def step (s : State) : Host.Outcome State Fault Refusal := s.nextCall.2.perform s.nextCall.1

/-- `s` with the instruction of a table row's bits where the next step fetches. -/
def State.withFetchWord (s : State) (nbits w : Nat) : State := s.placeAtFetch (tableWord nbits w)

end Sys2Proof.Machine
end

