-- ==== Sys2Proof/Machine/Run.lean ====
section
/-! DEFINITION. Runs and their end (spec/60_exceptions.md R340; spec/92_eei_decisions.md D28, log 26). The block has no halt: the condition that ends a run is a parameter, and no step reads it. -/

namespace Sys2Proof.Machine

/-- The condition D28 proposes: the instruction at `pc` is `1nnn` with `nnn = pc`, a jump to itself.
Inside `mem` the low 12 bits of `pc` are all of it. -/
def State.atSelfJump (s : State) : Bool :=
  s.fetchInMem && s.wordAtPc == encode (.jp (s.pc.setWidth 12))

/-- A run of at most `k` driver calls that ends where `endOfRun` holds (R340, D28). `endOfRun` is the
parameter each claim chooses: `State.atSelfJump`, or one that never holds for a fixed number of calls.
That a run ends does not say that the hardware stops there. -/
def State.runUntil (endOfRun : State → Bool) : Nat → State → Answer
  | 0, s => .next s
  | k + 1, s =>
    if endOfRun s then .next s
    else
      match step s with
      | .next t => State.runUntil endOfRun k t
      | .fault f => .fault f
      | .refused r => .refused r

end Sys2Proof.Machine
end

