-- ==== Sys2Proof/Safety.lean ====
section
/-! DEFINITION. The terms claims are stated in: which parts of the state an operation changes, what an error leaves, and the invariants of spec/10_state.md R37 and R42 and of the memory's canonical form (log 29). -/

namespace Sys2Proof.Machine

/-- The parts of State, one per field. -/
inductive Element where
  | pc | mem | i | regs | stack | dt | st | fb | dirty | keys | calls | result | errorSeen | draws
deriving DecidableEq, Repr

/-- The part is the same in both states. Memory is compared by every byte read, the registers by
every register read. -/
def Element.same : Element → State → State → Prop
  | .pc, s, t => t.pc = s.pc
  | .mem, s, t => ∀ a, Memory.read t.mem a = Memory.read s.mem a
  | .i, s, t => t.i = s.i
  | .regs, s, t => ∀ r, t.readV r = s.readV r
  | .stack, s, t => t.stack = s.stack
  | .dt, s, t => t.dt = s.dt
  | .st, s, t => t.st = s.st
  | .fb, s, t => ∀ px py, t.fb.pixel px py = s.fb.pixel px py
  | .dirty, s, t => t.dirty = s.dirty
  | .keys, s, t => ∀ k, t.keyDown k = s.keyDown k
  | .calls, s, t => t.calls = s.calls
  | .result, s, t => t.result = s.result
  | .errorSeen, s, t => t.errorSeen = s.errorSeen
  | .draws, s, t => t.draws = s.draws

/-- From `s` to `t` nothing changes but the listed parts: the frame of an operation. -/
def OnlyChanges (es : List Element) (s t : State) : Prop := ∀ e, e ∉ es → e.same s t

/-- Every register but the listed ones keeps its value. -/
def RegsSameBut (ds : List Reg) (s t : State) : Prop := ∀ r, r ∉ ds → t.readV r = s.readV r

/-- Every byte outside the `n` addresses from `a` reads as before. -/
def MemSameOutside (a n : Nat) (s t : State) : Prop :=
  ∀ b, b < a ∨ a + n ≤ b → Memory.read t.mem b = Memory.read s.mem b

/-- `t` is what error `e`, raised while an instruction executes from `s`, leaves (R305): the call
returns `e`, the sticky mark is set, `pc` is the `pc` of `s` or 2 less (D10), all else is as in `s`. -/
def LeavesError (e : OpError) (s t : State) : Prop :=
  t.result = .error e ∧ t.errorSeen = true ∧ (t.pc = s.pc ∨ t.pc = s.pc - 2) ∧
    OnlyChanges [.pc, .result, .errorSeen] s t

/-- The byte at address `a` in state `s`. -/
def State.byteAt (s : State) (a : Nat) : Byte := Memory.read s.mem a

/-- The sprite bit that falls on pixel `(px, py)` when `n` rows from `I` are drawn with column
`V[x]` and row `V[y]`: the pixel's offset from the start, around the edges (R233, R234, R240). -/
def State.spriteMask (s : State) (x y : Reg) (n : Nibble) (px : Fin 64) (py : Fin 32) : Bool :=
  let col := (px.val + 256 - (s.readV x).toNat) % 64
  let row := (py.val + 256 - (s.readV y).toNat) % 32
  col < 8 && row < n.toNat && spriteBit (s.byteAt (s.i.toNat + row)) col

/-- The memory is in its canonical form and the stack within its capacity (R42). -/
def StructureInv (s : State) : Prop := Memory.wf s.mem = true ∧ s.stack.length ≤ 16

/-- `pc` stays where R37 says, and every return address is one a call can push. -/
def PcInv (s : State) : Prop := s.pc.toNat ≤ 0x1002 ∧ ∀ a ∈ s.stack, a.toNat ≤ 0x1000

/-- The registers an instruction writes, by the table of R34: its destination, and `VF` for the
instructions that set a flag (R38, R39). -/
def writesReg : Instr → Reg → Bool
  | .ldImm x _, r | .addImm x _, r | .ldReg x _, r | .orReg x _, r | .andReg x _, r
  | .xorReg x _, r | .rnd x _, r | .ldVxDt x, r | .ldVxK x, r => r == x
  | .addReg x _, r | .subReg x _, r | .shrReg x _, r | .subnReg x _, r | .shlReg x _, r =>
    r == x || r == regVF
  | .drw _ _ _, r => r == regVF
  | .loadRegs x, r => r.toNat ≤ x.toNat
  | .nop, _ | .cls, _ | .ret, _ | .jp _, _ | .call _, _ | .seImm _ _, _ | .sneImm _ _, _
  | .seReg _ _, _ | .sneReg _ _, _ | .ldI _, _ | .ldiV0 _, _ | .skp _, _ | .sknp _, _
  | .ldDtVx _, _ | .ldStVx _, _ | .addI _, _ | .ldF _, _ | .ldB _, _ | .storeRegs _, _ => false

/-- The parts of the state other than the general registers, `pc` and what a call returns that an
instruction may write, by R41 to R48, and the draw count of `Cxnn` (log 9). -/
def writesElement : Instr → List Element
  | .cls => [.fb, .dirty]
  | .drw _ _ _ => [.fb, .dirty]
  | .ret | .call _ => [.stack]
  | .ldI _ | .ldiV0 _ | .addI _ | .ldF _ => [.i]
  | .ldB _ => [.mem]
  | .storeRegs _ => [.mem, .i]
  | .loadRegs _ => [.i]
  | .ldDtVx _ => [.dt]
  | .ldStVx _ => [.st]
  | .rnd _ _ => [.draws]
  | .nop | .jp _ | .seImm _ _ | .sneImm _ _ | .seReg _ _ | .sneReg _ _ | .ldImm _ _ | .addImm _ _
  | .ldReg _ _ | .orReg _ _ | .andReg _ _ | .xorReg _ _ | .addReg _ _ | .subReg _ _ | .shrReg _ _
  | .subnReg _ _ | .shlReg _ _ | .skp _ | .sknp _ | .ldVxDt _ | .ldVxK _ => []

/-- The errors an instruction can raise in state `s`, one kind each (R310); the payloads as D3, D4
and R309 leave them. -/
def mayRaise (i : Instr) (s : State) (e : OpError) : Prop :=
  match i with
  | .ret => e = .stackEmpty
  | .call _ => e = .stackOverflow
  | .skp _ | .sknp _ | .ldF _ => e = .undefinedOperand (encode i)
  | .drw _ _ n => e = .indexRegister s.i.toNat ∨ e = .indexRegister (s.i.toNat + (n.toNat - 1))
  | .ldB _ => e = .indexRegister s.i.toNat ∨ e = .indexRegister (s.i.toNat + 2)
  | .storeRegs x | .loadRegs x =>
    e = .indexRegister s.i.toNat ∨ e = .indexRegister (s.i.toNat + x.toNat)
  | .nop | .cls | .jp _ | .seImm _ _ | .sneImm _ _ | .seReg _ _ | .sneReg _ _ | .ldImm _ _
  | .addImm _ _ | .ldReg _ _ | .orReg _ _ | .andReg _ _ | .xorReg _ _ | .addReg _ _ | .subReg _ _
  | .shrReg _ _ | .subnReg _ _ | .shlReg _ _ | .ldI _ | .ldiV0 _ | .rnd _ _ | .ldVxDt _ | .ldVxK _
  | .ldDtVx _ | .ldStVx _ | .addI _ => False

/-- No driver call has returned an error so far (D22): the premise a claim about a clean run takes. -/
def ErrorFree (s : State) : Prop := s.errorSeen = false

/-- The step runs without error from `s`. -/
def CleanStep (s : State) : Prop := ∃ t, step s = .next t ∧ ErrorFree t

end Sys2Proof.Machine
end

