-- ==== Sys2Proof/Certificates/Slice0/Obligations.lean ====
section
/-! DEFINITION. The statements for the provers, about the machine and no program. A statement about `exec` is about the execute phase, from the state the fetch leaves (spec/30_encoding.md R103). How a driver call is put to the machine (`calls`), where its returned value stands (`result`) and the sticky mark (`errorSeen`) are the model's choice (logs 16, 17, 18). -/

open Sys2Proof Sys2Proof.Machine

/-! ## Encoding -/

/-- Decoding an instruction's word, or its two bytes in memory order, gives the instruction (R72, R104, R105). -/
def Obligations.DecodeOfEncodeIsTheInstruction : Prop :=
  ∀ i : Instr, decode (encode i) = .instr i ∧
    decodeBytes (highByte (encode i)) (lowByte (encode i)) = .instr i

/-- A word that decodes to an instruction is that instruction's word: no word has a second spelling (R107). -/
def Obligations.EncodeOfDecodeIsTheWord : Prop :=
  ∀ (w : Word) (i : Instr), decode w = .instr i → encode i = w

/-- A decoded word matches the row of its instruction in the table of R107, and no other row. -/
def Obligations.DecodedWordMatchesItsRowOnly : Prop :=
  ∀ (w : Word) (i : Instr), decode w = .instr i →
    i.row ∈ opcodeRows ∧ i.row.admits w = true ∧ ∀ r ∈ opcodeRows, r.admits w = true → r = i.row

/-- A word is illegal exactly when no row of the table of R107 matches it, and it is then returned by
itself (R109). -/
def Obligations.IllegalExactlyWhenNoRowMatches : Prop :=
  ∀ w : Word, (decode w = .illegal w ↔ ∀ r ∈ opcodeRows, r.admits w = false) ∧
    ∀ w', decode w = .illegal w' → w' = w

/-- The opcode map in prose (R108) and the decoder accept the same words. -/
def Obligations.OpcodeMapAgreesWithDecoder : Prop :=
  ∀ w : Word, WellFormed.word w = true ↔ ∃ i, decode w = .instr i

/-- Words written out from the encodings decode to the instructions they stand for, one or more for
each family: a sanity statement. -/
def Obligations.SomeWordsDecodeAsWritten : Prop :=
  decode 0x0000 = .instr .nop ∧ decode 0x00E0 = .instr .cls ∧ decode 0x2456 = .instr (.call 0x456) ∧
  decode 0x3407 = .instr (.seImm 4 0x07) ∧ decode 0x9120 = .instr (.sneReg 1 2) ∧
  decode 0x8126 = .instr (.shrReg 1 2) ∧ decode 0xB300 = .instr (.ldiV0 0x300) ∧
  decode 0xD015 = .instr (.drw 0 1 5) ∧ decode 0xE2A1 = .instr (.sknp 2) ∧
  decode 0xF265 = .instr (.loadRegs 2) ∧ decode 0x5121 = .illegal 0x5121

/-! ## The cycle -/

/-- A step on a legal word executes the decoded instruction, after the fetch moved `pc` past the word
and set the returned value to `Ok` (R102, R103, R110). It does so when the driver lists no call, and
when the next call it lists is `cycle()` (log 16). -/
def Obligations.StepRunsTheDecodedInstruction : Prop :=
  ∀ (s : State) (i : Instr), s.pc.toNat + 1 < 4096 → decode s.wordAtPc = .instr i →
    (s.calls = [] → step s = exec i s.fetched) ∧
    (∀ rest, s.calls = .cycle :: rest → step s = exec i (s.setCalls rest).fetched) ∧
    s.fetched.pc = s.pc + 2 ∧ s.fetched.result = .ok ∧ OnlyChanges [.pc, .result] s s.fetched

/-- R101, R302: a fetch at `0xFFF` or above returns `ProgramCounterError` and changes no state. The
address it carries is `pc` or `pc + 1` (D3). `c` is the state the driver's `cycle()` runs on. -/
def Obligations.FetchPastMemoryIsAnError : Prop :=
  ∀ s c : State, s.nextCall = (.cycle, c) → 0xFFF ≤ c.pc.toNat →
    ∃ t a, step s = .next t ∧ (a = c.pc.toNat ∨ a = c.pc.toNat + 1) ∧
      t.result = .error (.programCounter a) ∧ OnlyChanges [.result, .errorSeen] c t

/-- R109, R304, R305: an illegal word returns `OpcodeError` with itself. The state after it is that of
an execute-phase error; where `pc` then stands is open (D10, log 10). -/
def Obligations.IllegalWordIsAnError : Prop :=
  ∀ (s c : State) (w : Word), s.nextCall = (.cycle, c) → c.pc.toNat + 1 < 4096 →
    decode c.wordAtPc = .illegal w →
    w = c.wordAtPc ∧ ∃ t, step s = .next t ∧ LeavesError (.opcode w) c.fetched t

/-- The block never stops: from every state, whatever call the driver makes, a step answers a next
state. An error is a returned value (R300), and no access leaves `mem` (R76, log 17, log 29). -/
def Obligations.EveryStepAnswersANextState : Prop :=
  ∀ s : State, ∃ t, step s = .next t

/-- R305, R312: an instruction that returns an error has changed nothing else but `pc`, as D10 leaves
it open (log 10), whatever instruction and error it is. -/
def Obligations.ErrorChangesNothingElse : Prop :=
  ∀ (i : Instr) (s t : State) (e : OpError), s.result = .ok → exec i s = .next t →
    t.result = .error e → LeavesError e s t

/-- R310: an instruction returns `Ok` or its one kind of error. -/
def Obligations.InstructionRaisesOnlyItsOwnError : Prop :=
  ∀ (i : Instr) (s t : State), s.result = .ok → exec i s = .next t →
    t.result = .ok ∨ ∃ e, t.result = .error e ∧ mayRaise i s e

/-- The model's own mark (D22, log 18): a call that returns an error sets it, and no step clears it. -/
def Obligations.ErrorMarkIsSticky : Prop :=
  ∀ s t : State, step s = .next t →
    (s.errorSeen = true → t.errorSeen = true) ∧ (∀ e, t.result = .error e → t.errorSeen = true)

/-! ## Invariants and reset -/

/-- Reset meets both invariants. -/
def Obligations.ResetMeetsTheInvariants : Prop :=
  StructureInv State.reset ∧ PcInv State.reset

/-- Every step, whatever the driver calls, keeps the memory in its canonical form and the stack at 16
entries or fewer (R42). -/
def Obligations.StepKeepsStructure : Prop :=
  ∀ s t : State, StructureInv s → step s = .next t → StructureInv t

/-- Every step keeps `pc` at `0x1002` or below, with every return address at `0x1000` or below (R37). -/
def Obligations.StepKeepsPcInRange : Prop :=
  ∀ s t : State, PcInv s → step s = .next t → PcInv t

/-- R51, R350: the driver's reset, in any state, leaves every element at its reset value. The `pc` is
the spec's decision D1 (log 1) and the font bytes are the default of D2 (log 2); the model's `calls`,
`errorSeen` and `draws` go on (log 30). -/
def Obligations.ResetCallLeavesTheResetState : Prop :=
  ∀ (s : State) (rest : List DriverCall), s.calls = .reset :: rest →
    ∃ t, step s = .next t ∧ t.pc = 0x200 ∧ (∀ r, t.readV r = 0) ∧ t.i = 0 ∧ t.stack = [] ∧
      t.dt = 0 ∧ t.st = 0 ∧ (∀ px py, t.fb.pixel px py = false) ∧ t.dirty = false ∧
      (∀ k, t.keyDown k = false) ∧ (∀ a, a < 80 → t.byteAt a = fontGlyphs.getD a 0) ∧
      (∀ a, 80 ≤ a → t.byteAt a = 0) ∧ t.calls = rest ∧ t.result = .ok ∧
      t.errorSeen = s.errorSeen ∧ t.draws = s.draws

/-! ## Control transfer -/

/-- R140: the word of zeros is `NOP`, it only moves `pc` on, and memory above the font is zero after
reset. The call and its result stand where logs 16 and 17 put them. -/
def Obligations.NopOnlyMovesPc : Prop :=
  decode 0x0000 = .instr .nop ∧
  (∀ s : State, ∃ t, exec .nop s = .next t ∧ OnlyChanges [] s t) ∧
  (∀ s c : State, s.nextCall = (.cycle, c) → c.pc.toNat + 1 < 4096 → c.wordAtPc = 0 →
    ∃ t, step s = .next t ∧ t.pc = c.pc + 2 ∧ t.result = .ok ∧ OnlyChanges [.pc, .result] c t) ∧
  (∀ a, 0x050 ≤ a → State.reset.byteAt a = 0)

/-- R142: the jump's encoding; it sets `pc` to its 12-bit target and nothing else; a jump to its own address leaves
everything as it was but the value the call returns (the call and its result stand where logs 16 and
17 put them). -/
def Obligations.JumpSetsPc : Prop :=
  (∀ nnn : Addr12, decode (formatNNN 0x1 nnn) = .instr (.jp nnn)) ∧
  (∀ (nnn : Addr12) (s : State), ∃ t, exec (.jp nnn) s = .next t ∧ t.pc.toNat = nnn.toNat ∧
    OnlyChanges [.pc] s t) ∧
  (∀ (nnn : Addr12) (s c : State), s.nextCall = (.cycle, c) → c.pc.toNat + 1 < 4096 →
    decode c.wordAtPc = .instr (.jp nnn) → nnn.toNat = c.pc.toNat →
    ∃ t, step s = .next t ∧ t.result = .ok ∧ OnlyChanges [.result] c t)

/-- R143: a call below 16 entries pushes `pc`, all 16 bits of it, and jumps; at 16 entries it returns
`StackOverflowError` (D11, log 11; `pc` then as D10 leaves it open). -/
def Obligations.CallPushesAndJumps : Prop :=
  ∀ (nnn : Addr12) (s : State),
    (s.stack.length < 16 → ∃ t, exec (.call nnn) s = .next t ∧ t.pc.toNat = nnn.toNat ∧
      t.stack = s.pc :: s.stack ∧ OnlyChanges [.pc, .stack] s t) ∧
    (16 ≤ s.stack.length → ∃ t, exec (.call nnn) s = .next t ∧ LeavesError .stackOverflow s t)

/-- R141: a return takes the newest entry as `pc`, as it is; on an empty stack it returns
`StackEmptyError` (`pc` then as D10 leaves it open). -/
def Obligations.ReturnPopsPc : Prop :=
  ∀ s : State,
    (∀ a rest, s.stack = a :: rest → ∃ t, exec .ret s = .next t ∧ t.pc = a ∧ t.stack = rest ∧
      OnlyChanges [.pc, .stack] s t) ∧
    (s.stack = [] → ∃ t, exec .ret s = .next t ∧ LeavesError .stackEmpty s t)

/-- A return right after a call, wherever `pc` has gone and whatever else the subroutine changed,
comes back to the instruction after the call with the stack as it was (R141, R143). -/
def Obligations.ReturnUndoesCall : Prop :=
  ∀ (nnn : Addr12) (s t u : State), s.stack.length < 16 → exec (.call nnn) s = .next t →
    u.stack = t.stack → ∃ w, exec .ret u = .next w ∧ w.pc = s.pc ∧ w.stack = s.stack

/-- R144, R145: the skips on an immediate, with their encodings. -/
def Obligations.SkipsOnImmediate : Prop :=
  ∀ (x : Reg) (nn : Byte) (s : State),
    (∃ t, exec (.seImm x nn) s = .next t ∧ OnlyChanges [.pc] s t ∧
      t.pc = if s.readV x = nn then s.pc + 2 else s.pc) ∧
    (∃ t, exec (.sneImm x nn) s = .next t ∧ OnlyChanges [.pc] s t ∧
      t.pc = if s.readV x = nn then s.pc else s.pc + 2) ∧
    decode (formatXNN 0x3 x nn) = .instr (.seImm x nn) ∧
    decode (formatXNN 0x4 x nn) = .instr (.sneImm x nn)

/-- R146, R147: the skips on two registers, with their encodings; their words with another lowest
nibble are illegal. -/
def Obligations.SkipsOnRegisters : Prop :=
  ∀ (x y : Reg) (s : State),
    (∃ t, exec (.seReg x y) s = .next t ∧ OnlyChanges [.pc] s t ∧
      t.pc = if s.readV x = s.readV y then s.pc + 2 else s.pc) ∧
    (∃ t, exec (.sneReg x y) s = .next t ∧ OnlyChanges [.pc] s t ∧
      t.pc = if s.readV x = s.readV y then s.pc else s.pc + 2) ∧
    decode (formatXYN 0x5 x y 0) = .instr (.seReg x y) ∧
    decode (formatXYN 0x9 x y 0) = .instr (.sneReg x y) ∧
    (∀ k : Nibble, k ≠ 0 →
      decode (formatXYN 0x5 x y k) = .illegal (formatXYN 0x5 x y k) ∧
      decode (formatXYN 0x9 x y k) = .illegal (formatXYN 0x9 x y k))

/-! ## Registers and arithmetic -/

/-- R170, R171: the immediate load and add, with their encodings; the add wraps at 256 and sets no
flag. -/
def Obligations.ImmediateLoadAndAdd : Prop :=
  ∀ (x : Reg) (nn : Byte) (s : State),
    (∃ t, exec (.ldImm x nn) s = .next t ∧ t.readV x = nn ∧ RegsSameBut [x] s t ∧
      OnlyChanges [.regs] s t) ∧
    (∃ t, exec (.addImm x nn) s = .next t ∧
      (t.readV x).toNat = ((s.readV x).toNat + nn.toNat) % 256 ∧ RegsSameBut [x] s t ∧
      OnlyChanges [.regs] s t) ∧
    decode (formatXNN 0x6 x nn) = .instr (.ldImm x nn) ∧
    decode (formatXNN 0x7 x nn) = .instr (.addImm x nn)

/-- R172 to R175: the move and the three logic instructions, bit by bit, with their encodings; `VF` is
not reset. -/
def Obligations.MoveAndLogic : Prop :=
  ∀ (x y : Reg) (s : State),
    (∃ t, exec (.ldReg x y) s = .next t ∧ t.readV x = s.readV y ∧ RegsSameBut [x] s t ∧
      OnlyChanges [.regs] s t) ∧
    (∃ t, exec (.orReg x y) s = .next t ∧
      (∀ k < 8, (t.readV x).getLsbD k = ((s.readV x).getLsbD k || (s.readV y).getLsbD k)) ∧
      RegsSameBut [x] s t ∧ OnlyChanges [.regs] s t) ∧
    (∃ t, exec (.andReg x y) s = .next t ∧
      (∀ k < 8, (t.readV x).getLsbD k = ((s.readV x).getLsbD k && (s.readV y).getLsbD k)) ∧
      RegsSameBut [x] s t ∧ OnlyChanges [.regs] s t) ∧
    (∃ t, exec (.xorReg x y) s = .next t ∧
      (∀ k < 8, (t.readV x).getLsbD k = ((s.readV x).getLsbD k ^^ (s.readV y).getLsbD k)) ∧
      RegsSameBut [x] s t ∧ OnlyChanges [.regs] s t) ∧
    decode (formatXYN 0x8 x y 0) = .instr (.ldReg x y) ∧
    decode (formatXYN 0x8 x y 1) = .instr (.orReg x y) ∧
    decode (formatXYN 0x8 x y 2) = .instr (.andReg x y) ∧
    decode (formatXYN 0x8 x y 3) = .instr (.xorReg x y)

/-- R176: the add of two registers; with `x = 0xF` the carry is what `VF` holds (D12, log 12). -/
def Obligations.AddWritesSumAndCarry : Prop :=
  ∀ (x y : Reg) (s : State), ∃ t, exec (.addReg x y) s = .next t ∧
    (x ≠ 0xF → (t.readV x).toNat = ((s.readV x).toNat + (s.readV y).toNat) % 256) ∧
    t.readV 0xF = (if 255 < (s.readV x).toNat + (s.readV y).toNat then 1 else 0) ∧
    RegsSameBut [x, 0xF] s t ∧ OnlyChanges [.regs] s t

/-- R177, R179: both subtractions; the flag is 0 exactly on a borrow, and with `x = 0xF` it is what
`VF` holds (D12, log 12). -/
def Obligations.SubtractWritesDifferenceAndNoBorrow : Prop :=
  ∀ (x y : Reg) (s : State),
    (∃ t, exec (.subReg x y) s = .next t ∧
      (x ≠ 0xF → (t.readV x).toNat = ((s.readV x).toNat + 256 - (s.readV y).toNat) % 256) ∧
      t.readV 0xF = (if (s.readV x).toNat < (s.readV y).toNat then 0 else 1) ∧
      RegsSameBut [x, 0xF] s t ∧ OnlyChanges [.regs] s t) ∧
    (∃ t, exec (.subnReg x y) s = .next t ∧
      (x ≠ 0xF → (t.readV x).toNat = ((s.readV y).toNat + 256 - (s.readV x).toNat) % 256) ∧
      t.readV 0xF = (if (s.readV y).toNat < (s.readV x).toNat then 0 else 1) ∧
      RegsSameBut [x, 0xF] s t ∧ OnlyChanges [.regs] s t)

/-- R178, R180: both shifts, of `V[y]` by one bit; `VF` is the bit shifted out, also when `x = 0xF`
(D12, log 12). -/
def Obligations.ShiftsMoveVyByOneBit : Prop :=
  ∀ (x y : Reg) (s : State),
    (∃ t, exec (.shrReg x y) s = .next t ∧
      (x ≠ 0xF → (t.readV x).toNat = (s.readV y).toNat / 2) ∧
      (t.readV 0xF).toNat = (s.readV y).toNat % 2 ∧
      RegsSameBut [x, 0xF] s t ∧ OnlyChanges [.regs] s t) ∧
    (∃ t, exec (.shlReg x y) s = .next t ∧
      (x ≠ 0xF → (t.readV x).toNat = (s.readV y).toNat * 2 % 256) ∧
      (t.readV 0xF).toNat = (s.readV y).toNat / 128 ∧
      RegsSameBut [x, 0xF] s t ∧ OnlyChanges [.regs] s t)

/-! ## Index register and memory -/

/-- R200, R201: both loads of `I`, with their encodings; `Bnnn` adds `V0`, never wraps and does not
jump. -/
def Obligations.IndexLoads : Prop :=
  ∀ (nnn : Addr12) (s : State),
    (∃ t, exec (.ldI nnn) s = .next t ∧ t.i.toNat = nnn.toNat ∧ OnlyChanges [.i] s t) ∧
    (∃ t, exec (.ldiV0 nnn) s = .next t ∧ t.i.toNat = nnn.toNat + (s.readV 0).toNat ∧
      OnlyChanges [.i] s t) ∧
    decode (formatNNN 0xA nnn) = .instr (.ldI nnn) ∧
    decode (formatNNN 0xB nnn) = .instr (.ldiV0 nnn)

/-- R202: `I` plus `V[x]`, wrapping at 16 bits (D14, log 13), with no flag. -/
def Obligations.IndexAdd : Prop :=
  ∀ (x : Reg) (s : State), ∃ t, exec (.addI x) s = .next t ∧
    t.i.toNat = (s.i.toNat + (s.readV x).toNat) % 65536 ∧ OnlyChanges [.i] s t

/-- R203: the glyph address of a hexadecimal digit. For any other byte the choice of D8 is open (log 8):
the formula, or `UndefinedOperandError` with the instruction's word. -/
def Obligations.FontAddress : Prop :=
  ∀ (x : Reg) (s : State),
    ((s.readV x).toNat < 16 → ∃ t, exec (.ldF x) s = .next t ∧
      t.i.toNat = 5 * (s.readV x).toNat ∧ OnlyChanges [.i] s t) ∧
    (16 ≤ (s.readV x).toNat → ∃ t, exec (.ldF x) s = .next t ∧
      ((t.i.toNat = 5 * (s.readV x).toNat ∧ OnlyChanges [.i] s t) ∨
        LeavesError (.undefinedOperand (encode (.ldF x))) s t))

/-- R204: three decimal digits at `I` up; they are digits and give the byte back; nothing else
changes. A range past `0xFFF` is `IndexRegisterError` (D6, log 6; payload D4, log 4). -/
def Obligations.BcdStoresTheDigits : Prop :=
  ∀ (x : Reg) (s : State),
    (s.i.toNat + 2 ≤ 0xFFF → ∃ t, exec (.ldB x) s = .next t ∧
      (t.byteAt s.i.toNat).toNat = (s.readV x).toNat / 100 ∧
      (t.byteAt (s.i.toNat + 1)).toNat = (s.readV x).toNat / 10 % 10 ∧
      (t.byteAt (s.i.toNat + 2)).toNat = (s.readV x).toNat % 10 ∧
      MemSameOutside s.i.toNat 3 s t ∧ OnlyChanges [.mem] s t) ∧
    (0xFFF < s.i.toNat + 2 → ∃ t a, exec (.ldB x) s = .next t ∧
      (a = s.i.toNat ∨ a = s.i.toNat + 2) ∧ LeavesError (.indexRegister a) s t)

/-- The three stored digits are each at most 9 and give the byte back. -/
def Obligations.BcdDigitsGiveTheByteBack : Prop :=
  ∀ (x : Reg) (s t : State), s.i.toNat + 2 ≤ 0xFFF → exec (.ldB x) s = .next t →
    (t.byteAt s.i.toNat).toNat ≤ 9 ∧ (t.byteAt (s.i.toNat + 1)).toNat ≤ 9 ∧
    (t.byteAt (s.i.toNat + 2)).toNat ≤ 9 ∧
    100 * (t.byteAt s.i.toNat).toNat + 10 * (t.byteAt (s.i.toNat + 1)).toNat +
      (t.byteAt (s.i.toNat + 2)).toNat = (s.readV x).toNat

/-- R205: `V[0]` to `V[x]` stored at `I` up and `I` moved past them; a range past `0xFFF` is
`IndexRegisterError` and stores nothing (payload D4, log 4; the check has no wrap, D14, log 13). -/
def Obligations.StoreRegisters : Prop :=
  ∀ (x : Reg) (s : State),
    (s.i.toNat + x.toNat ≤ 0xFFF → ∃ t, exec (.storeRegs x) s = .next t ∧
      (∀ k : Reg, k.toNat ≤ x.toNat → t.byteAt (s.i.toNat + k.toNat) = s.readV k) ∧
      t.i.toNat = s.i.toNat + x.toNat + 1 ∧
      MemSameOutside s.i.toNat (x.toNat + 1) s t ∧ OnlyChanges [.mem, .i] s t) ∧
    (0xFFF < s.i.toNat + x.toNat → ∃ t a, exec (.storeRegs x) s = .next t ∧
      (a = s.i.toNat ∨ a = s.i.toNat + x.toNat) ∧ LeavesError (.indexRegister a) s t)

/-- R206: `V[0]` to `V[x]` loaded from `I` up and `I` moved past them; a range past `0xFFF` is
`IndexRegisterError` and loads nothing (payload D4, log 4; the check has no wrap, D14, log 13). -/
def Obligations.LoadRegisters : Prop :=
  ∀ (x : Reg) (s : State),
    (s.i.toNat + x.toNat ≤ 0xFFF → ∃ t, exec (.loadRegs x) s = .next t ∧
      (∀ k : Reg, t.readV k =
        if k.toNat ≤ x.toNat then s.byteAt (s.i.toNat + k.toNat) else s.readV k) ∧
      t.i.toNat = s.i.toNat + x.toNat + 1 ∧ OnlyChanges [.regs, .i] s t) ∧
    (0xFFF < s.i.toNat + x.toNat → ∃ t a, exec (.loadRegs x) s = .next t ∧
      (a = s.i.toNat ∨ a = s.i.toNat + x.toNat) ∧ LeavesError (.indexRegister a) s t)

/-- Registers stored by `Fx55` come back by `Fx65` from the same `I` in any state with that memory. -/
def Obligations.StoreThenLoadGivesTheRegistersBack : Prop :=
  ∀ (x : Reg) (s t u : State), s.i.toNat + x.toNat ≤ 0xFFF → exec (.storeRegs x) s = .next t →
    u.mem = t.mem → u.i = s.i →
    ∃ w, exec (.loadRegs x) u = .next w ∧ ∀ k : Reg, k.toNat ≤ x.toNat → w.readV k = s.readV k

/-- R84, R361 (D15, log 14): two bytes stored by `Fx55` are the word the next fetch from their address
reads, the first one high (R74). -/
def Obligations.StoredBytesAreFetched : Prop :=
  ∀ (x k : Reg) (s t u : State), s.i.toNat + x.toNat ≤ 0xFFF → k.toNat + 1 ≤ x.toNat →
    exec (.storeRegs x) s = .next t → u.mem = t.mem → u.pc.toNat = s.i.toNat + k.toNat →
    u.wordAtPc = wordOfBytes (s.readV k) (s.readV (k + 1))

/-- A byte written and read back is that byte, and every other address reads as before (R78); an
address above `0xFFF` has neither access (R14). -/
def Obligations.ByteReadAfterWrite : Prop :=
  ∀ (s : State) (a : Nat) (b : Byte),
    (a < 4096 → ∃ t, s.writeByte a b = .ok t ∧ t.readByte a = .ok b ∧
      (∀ c, c ≠ a → t.readByte c = s.readByte c) ∧ OnlyChanges [.mem] s t) ∧
    (4096 ≤ a → s.writeByte a b = .error (.noSuchAddress a) ∧
      s.readByte a = .error (.noSuchAddress a))

/-! ## Display -/

/-- R231: clearing the screen, with its word. -/
def Obligations.ClearScreen : Prop :=
  decode 0x00E0 = .instr .cls ∧
  ∀ s : State, ∃ t, exec .cls s = .next t ∧ (∀ px py, t.fb.pixel px py = false) ∧ t.dirty = true ∧
    OnlyChanges [.fb, .dirty] s t

/-- A draw inside memory is the framebuffer XOR the sprite's mask, with `VF` telling whether a lit
pixel was under the mask, and `dirty` set (R232 to R240). The mask is given by offsets from the start
column and row, not by the drawing loop. Rows wrap modulo 32 (C2, log 27); the range check is D5's
(log 5), and that `n = 0` runs whatever `I` holds is D20's (log 21);
the flag is written last (D12, log 12). -/
def Obligations.DrawIsXorWithTheSpriteMask : Prop :=
  ∀ (x y : Reg) (n : Nibble) (s : State), n = 0 ∨ s.i.toNat + (n.toNat - 1) ≤ 0xFFF →
    ∃ t, exec (.drw x y n) s = .next t ∧
      (∀ px py, t.fb.pixel px py = (s.fb.pixel px py ^^ s.spriteMask x y n px py)) ∧
      ((∃ px py, s.fb.pixel px py = true ∧ s.spriteMask x y n px py = true) → t.readV 0xF = 1) ∧
      ((∀ px py, s.fb.pixel px py = true → s.spriteMask x y n px py = false) → t.readV 0xF = 0) ∧
      t.dirty = true ∧ RegsSameBut [0xF] s t ∧ OnlyChanges [.fb, .dirty, .regs] s t

/-- R235 (D5, log 5): a draw of `n ≥ 1` rows whose last byte lies above `0xFFF` is
`IndexRegisterError` and draws nothing (payload D4, log 4). -/
def Obligations.DrawPastMemoryIsAnError : Prop :=
  ∀ (x y : Reg) (n : Nibble) (s : State), n ≠ 0 → 0xFFF < s.i.toNat + (n.toNat - 1) →
    ∃ t a, exec (.drw x y n) s = .next t ∧
      (a = s.i.toNat ∨ a = s.i.toNat + (n.toNat - 1)) ∧ LeavesError (.indexRegister a) s t

/-- R236 (D20, log 21): a draw of no rows changes no pixel, whatever `I` holds, clears `VF` and sets
`dirty`. -/
def Obligations.DrawOfNoRows : Prop :=
  ∀ (x y : Reg) (s : State), ∃ t, exec (.drw x y 0) s = .next t ∧ t.readV 0xF = 0 ∧
    t.dirty = true ∧ RegsSameBut [0xF] s t ∧ OnlyChanges [.dirty, .regs] s t

/-- The same sprite drawn twice at the same place leaves every pixel as it was; and if the first draw
hit no lit pixel, the second one collides exactly when the sprite has a set bit. -/
def Obligations.DrawTwiceErases : Prop :=
  ∀ (x y : Reg) (n : Nibble) (s t u : State), x ≠ 0xF → y ≠ 0xF →
    (n = 0 ∨ s.i.toNat + (n.toNat - 1) ≤ 0xFFF) → exec (.drw x y n) s = .next t → exec (.drw x y n) t = .next u →
    (∀ px py, u.fb.pixel px py = s.fb.pixel px py) ∧
    (t.readV 0xF = 0 → (u.readV 0xF = 1 ↔ ∃ px py, s.spriteMask x y n px py = true))

/-! ## Random byte, keys and timers -/

/-- R260: a fresh byte of the random source, masked; the source is the free `Config.randomByte`, one
byte per draw (D9, log 9). -/
def Obligations.RandomByteIsMasked : Prop :=
  ∀ (x : Reg) (nn : Byte) (s : State), ∃ t, exec (.rnd x nn) s = .next t ∧
    (∀ k < 8, (t.readV x).getLsbD k = ((Config.randomByte s.draws).getLsbD k && nn.getLsbD k)) ∧
    t.draws = s.draws + 1 ∧ RegsSameBut [x] s t ∧ OnlyChanges [.regs, .draws] s t

/-- R261, R262: the key skips on a byte that names a key. For any other byte they are
`UndefinedOperandError` with the instruction's word (D7, log 7). -/
def Obligations.KeySkips : Prop :=
  ∀ (x : Reg) (s : State),
    (∀ k : Fin 16, (s.readV x).toNat = k.val →
      (∃ t, exec (.skp x) s = .next t ∧ OnlyChanges [.pc] s t ∧
        t.pc = if s.keyDown k then s.pc + 2 else s.pc) ∧
      (∃ t, exec (.sknp x) s = .next t ∧ OnlyChanges [.pc] s t ∧
        t.pc = if s.keyDown k then s.pc else s.pc + 2)) ∧
    (16 ≤ (s.readV x).toNat →
      (∃ t, exec (.skp x) s = .next t ∧ LeavesError (.undefinedOperand (encode (.skp x))) s t) ∧
      (∃ t, exec (.sknp x) s = .next t ∧ LeavesError (.undefinedOperand (encode (.sknp x))) s t))

/-- R264: the wait for a key, with its encoding: with none pressed `pc` goes back 2, else the lowest
pressed key. -/
def Obligations.KeyWait : Prop :=
  ∀ (x : Reg) (s : State),
    decode (formatXNN 0xF x 0x0A) = .instr (.ldVxK x) ∧
    ((∀ k, s.keyDown k = false) →
      ∃ t, exec (.ldVxK x) s = .next t ∧ t.pc = s.pc - 2 ∧ OnlyChanges [.pc] s t) ∧
    (∀ k : Fin 16, s.keyDown k = true → (∀ j : Fin 16, j < k → s.keyDown j = false) →
      ∃ t, exec (.ldVxK x) s = .next t ∧ (t.readV x).toNat = k.val ∧ RegsSameBut [x] s t ∧
        OnlyChanges [.regs] s t)

/-- R268: while no key is pressed a step at `Fx0A` changes nothing: the next step finds the same
instruction. -/
def Obligations.WaitForKeyRepeats : Prop :=
  ∀ (x : Reg) (s c : State), s.nextCall = (.cycle, c) → c.pc.toNat + 1 < 4096 →
    decode c.wordAtPc = .instr (.ldVxK x) → (∀ k, c.keyDown k = false) →
    ∃ t, step s = .next t ∧ t.result = .ok ∧ OnlyChanges [.result] c t

/-- R263, R265, R266: reading and writing the timers, with their encodings. -/
def Obligations.TimerReadsAndWrites : Prop :=
  ∀ (x : Reg) (s : State),
    (∃ t, exec (.ldVxDt x) s = .next t ∧ t.readV x = s.dt ∧ RegsSameBut [x] s t ∧
      OnlyChanges [.regs] s t) ∧
    (∃ t, exec (.ldDtVx x) s = .next t ∧ t.dt = s.readV x ∧ OnlyChanges [.dt] s t) ∧
    (∃ t, exec (.ldStVx x) s = .next t ∧ t.st = s.readV x ∧ OnlyChanges [.st] s t) ∧
    decode (formatXNN 0xF x 0x07) = .instr (.ldVxDt x) ∧
    decode (formatXNN 0xF x 0x15) = .instr (.ldDtVx x) ∧
    decode (formatXNN 0xF x 0x18) = .instr (.ldStVx x)

/-! ## The driver's calls -/

/-- R320: a tick takes 1 off each timer above 0, and changes nothing else but the call taken and its
result (logs 16, 17). -/
def Obligations.TickCountsTimersDown : Prop :=
  ∀ (s : State) (rest : List DriverCall), s.calls = .tickTimers :: rest →
    ∃ t, step s = .next t ∧ t.dt.toNat = s.dt.toNat - 1 ∧ t.st.toNat = s.st.toNat - 1 ∧
      t.calls = rest ∧ t.result = .ok ∧ OnlyChanges [.dt, .st, .calls, .result] s t

/-- R322 in the reading of D18 (log 19): on a tick the sound signal is true exactly when the sound
timer was 2. -/
def Obligations.SoundSignalOnTheTickToOne : Prop :=
  ∀ (s t : State) (rest : List DriverCall), s.calls = .tickTimers :: rest → step s = .next t →
    (soundSignal s t = true ↔ s.st.toNat = 2)

/-- R308, R325: a key below 16 takes the given state and no other changes; an index of 16 or more, of
any size (D23, log 23), is `KeyIndexError` and changes nothing. -/
def Obligations.SetKeyLatchesOrRejects : Prop :=
  ∀ (s : State) (index : Nat) (pressed : Bool) (rest : List DriverCall),
    s.calls = .setKey index pressed :: rest →
    (index < 16 → ∃ t, step s = .next t ∧
      (∀ k : Fin 16, t.keyDown k = if k.val = index then pressed else s.keyDown k) ∧
      t.calls = rest ∧ t.result = .ok ∧ OnlyChanges [.keys, .calls, .result] s t) ∧
    (16 ≤ index → ∃ t, step s = .next t ∧ t.result = .error .keyIndex ∧ t.calls = rest ∧
      OnlyChanges [.calls, .result, .errorSeen] s t)

/-- R301, R355: a load of at most 2560 bytes puts them at `0x200` up and changes nothing else; a longer
one is `SizeError` and changes nothing (that nothing else changes, at any time: D19, log 20), but the
call taken, its result and the model's mark (logs 16,
17, 18). -/
def Obligations.LoadCopiesTheBytes : Prop :=
  ∀ (s : State) (bytes : List Byte) (rest : List DriverCall), s.calls = .load bytes :: rest →
    (bytes.length ≤ 2560 → ∃ t, step s = .next t ∧
      (∀ k < bytes.length, t.byteAt (0x200 + k) = bytes.getD k 0) ∧
      MemSameOutside 0x200 bytes.length s t ∧ t.calls = rest ∧ t.result = .ok ∧
      OnlyChanges [.mem, .calls, .result] s t) ∧
    (2560 < bytes.length → ∃ t, step s = .next t ∧ t.result = .error .size ∧ t.calls = rest ∧
      OnlyChanges [.calls, .result, .errorSeen] s t)

/-- R330: the view has pixel `(x, y)` at element `y*64+x`, and reading it changes nothing but the call
taken and its result (logs 16, 17). -/
def Obligations.FramebufferViewIsRowMajor : Prop :=
  ∀ (s : State) (rest : List DriverCall), s.calls = .framebuffer :: rest →
    ∃ t view, step s = .next t ∧ t.result = .view view ∧
      (∀ (px : Fin 64) (py : Fin 32), view[py.val * 64 + px.val]'(by omega) = s.fb.pixel px py) ∧
      t.calls = rest ∧ OnlyChanges [.calls, .result] s t

/-- R331, R332 (D24, log 23): the query returns `dirty` and the clear makes it false; neither changes
anything else. -/
def Obligations.DirtyQueryAndClear : Prop :=
  ∀ (s : State) (rest : List DriverCall),
    (s.calls = .queryDirty :: rest → ∃ t, step s = .next t ∧ t.result = .dirtyFlag s.dirty ∧
      t.calls = rest ∧ OnlyChanges [.calls, .result] s t) ∧
    (s.calls = .clearDirty :: rest → ∃ t, step s = .next t ∧ t.dirty = false ∧ t.result = .ok ∧
      t.calls = rest ∧ OnlyChanges [.dirty, .calls, .result] s t)

/-! ## The whole machine -/

/-- Each part of the state has the writers R41 to R48 and R71 list and no other: an instruction
changes, besides registers, `pc` and the returned value, only those parts. No instruction writes the
keys or the driver's calls (R326). -/
def Obligations.OnlyListedInstructionsWrite : Prop :=
  ∀ (i : Instr) (s t : State), exec i s = .next t →
    OnlyChanges (writesElement i ++ [.regs, .pc, .result, .errorSeen]) s t

/-- An instruction writes only the registers the table of R34 gives it: `VF` is written as a flag by
the instructions of R38 alone (R39). -/
def Obligations.OnlyListedRegistersAreWritten : Prop :=
  ∀ (i : Instr) (s t : State) (r : Reg), exec i s = .next t → writesReg i r = false →
    t.readV r = s.readV r

/-- R45: no instruction reads the sound timer. From a state that differs in the sound timer alone an
instruction leaves a state that differs in it alone, or the very same state if it writes it. -/
def Obligations.SoundTimerIsNeverRead : Prop :=
  ∀ (i : Instr) (s t : State) (b : Byte), exec i s = .next t →
    (Element.st ∈ writesElement i ∧ exec i (s.setSt b) = .next t) ∨
      exec i (s.setSt b) = .next (t.setSt b)

/-- R47: no instruction reads the dirty flag; as for the sound timer. -/
def Obligations.DirtyFlagIsNeverRead : Prop :=
  ∀ (i : Instr) (s t : State) (d : Bool), exec i s = .next t →
    (Element.dirty ∈ writesElement i ∧ exec i (s.setDirty d) = .next t) ∨
      exec i (s.setDirty d) = .next (t.setDirty d)

/-- R340 (D28, log 26): the end of a run is a parameter, and nothing stops there. Whatever the
parameter, a run of any length answers a state, and a run where it holds goes no further. Under the
condition D28 proposes, the jump to itself, a `cycle()` at the end answers a state that is at the end
again and differs in the returned value alone (log 17). -/
def Obligations.EndOfRunIsAParameter : Prop :=
  (∀ (endOfRun : State → Bool) (k : Nat) (s : State),
    (∃ t, s.runUntil endOfRun k = .next t) ∧
    (endOfRun s = true → s.runUntil endOfRun k = .next s)) ∧
  (∀ s : State, s.atSelfJump = true ↔
    s.pc.toNat + 1 < 4096 ∧ ∃ nnn : Addr12, decode s.wordAtPc = .instr (.jp nnn) ∧
      nnn.toNat = s.pc.toNat) ∧
  (∀ s c : State, s.nextCall = (.cycle, c) → c.atSelfJump = true →
    ∃ t, step s = .next t ∧ t.atSelfJump = true ∧ OnlyChanges [.result] c t)
end

