-- ==== Sys2Proof/Laws/Decode.lean ====
section
/-! SUPPORT. The fields of a word laid out by each format, and a word put together from its fields (spec/30_encoding.md R104, R105). -/

namespace Sys2Proof

@[simp] theorem fieldN4_formatNNN (a : BitVec 4) (b : Addr12) : fieldN4 (formatNNN a b) = a := by
  unfold fieldN4 formatNNN
  apply BitVec.eq_of_getLsbD_eq
  intro i hi
  rw [BitVec.getLsbD_extractLsb', BitVec.getLsbD_append]
  simp [hi]

@[simp] theorem fieldNNN_formatNNN (a : BitVec 4) (b : Addr12) : fieldNNN (formatNNN a b) = b := by
  unfold fieldNNN formatNNN
  apply BitVec.eq_of_getLsbD_eq
  intro i hi
  rw [BitVec.getLsbD_extractLsb', BitVec.getLsbD_append]
  simp [hi]

@[simp] theorem fieldN4_formatXNN (a : BitVec 4) (x : Reg) (b : Byte) : fieldN4 (formatXNN a x b) = a := by
  unfold fieldN4 formatXNN
  apply BitVec.eq_of_getLsbD_eq
  intro i hi
  rw [BitVec.getLsbD_extractLsb', BitVec.getLsbD_append]
  simp [hi]

@[simp] theorem fieldX_formatXNN (a : BitVec 4) (x : Reg) (b : Byte) : fieldX (formatXNN a x b) = x := by
  unfold fieldX formatXNN
  apply BitVec.eq_of_getLsbD_eq
  intro i hi
  rw [BitVec.getLsbD_extractLsb', BitVec.getLsbD_append, BitVec.getLsbD_append]
  simp [hi]
  omega

@[simp] theorem fieldNN_formatXNN (a : BitVec 4) (x : Reg) (b : Byte) : fieldNN (formatXNN a x b) = b := by
  unfold fieldNN formatXNN
  apply BitVec.eq_of_getLsbD_eq
  intro i hi
  rw [BitVec.getLsbD_extractLsb', BitVec.getLsbD_append, BitVec.getLsbD_append]
  simp [hi, show i < 12 by omega]

@[simp] theorem fieldN4_formatXYN (a : BitVec 4) (x y : Reg) (b : Nibble) :
    fieldN4 (formatXYN a x y b) = a := by
  unfold fieldN4 formatXYN
  apply BitVec.eq_of_getLsbD_eq
  intro i hi
  rw [BitVec.getLsbD_extractLsb', BitVec.getLsbD_append]
  simp [hi]

@[simp] theorem fieldX_formatXYN (a : BitVec 4) (x y : Reg) (b : Nibble) :
    fieldX (formatXYN a x y b) = x := by
  unfold fieldX formatXYN
  apply BitVec.eq_of_getLsbD_eq
  intro i hi
  rw [BitVec.getLsbD_extractLsb', BitVec.getLsbD_append, BitVec.getLsbD_append]
  simp [hi]
  omega

@[simp] theorem fieldY_formatXYN (a : BitVec 4) (x y : Reg) (b : Nibble) :
    fieldY (formatXYN a x y b) = y := by
  unfold fieldY formatXYN
  apply BitVec.eq_of_getLsbD_eq
  intro i hi
  rw [BitVec.getLsbD_extractLsb', BitVec.getLsbD_append, BitVec.getLsbD_append, BitVec.getLsbD_append]
  simp [hi, show 4 + i < 12 by omega, show 4 + i < 8 by omega]

@[simp] theorem fieldN_formatXYN (a : BitVec 4) (x y : Reg) (b : Nibble) :
    fieldN (formatXYN a x y b) = b := by
  unfold fieldN formatXYN
  apply BitVec.eq_of_getLsbD_eq
  intro i hi
  rw [BitVec.getLsbD_extractLsb', BitVec.getLsbD_append, BitVec.getLsbD_append, BitVec.getLsbD_append]
  simp [hi, show i < 12 by omega, show i < 8 by omega]

/-- The two bytes of a word make the word again (R72). -/
@[simp] theorem wordOfBytes_highByte_lowByte (w : Word) : wordOfBytes (highByte w) (lowByte w) = w := by
  unfold wordOfBytes highByte lowByte
  apply BitVec.eq_of_getLsbD_eq
  intro i hi
  rw [BitVec.getLsbD_append, BitVec.getLsbD_extractLsb', BitVec.getLsbD_extractLsb']
  by_cases h : i < 8
  · simp [h]
  · simp [h, show i - 8 < 8 by omega, show 8 + (i - 8) = i by omega]

theorem formatNNN_of_fields (w : Word) : formatNNN (fieldN4 w) (fieldNNN w) = w := by
  unfold fieldN4 fieldNNN formatNNN
  apply BitVec.eq_of_getLsbD_eq
  intro i hi
  rw [BitVec.getLsbD_append, BitVec.getLsbD_extractLsb', BitVec.getLsbD_extractLsb']
  by_cases h : i < 12
  · simp [h]
  · simp [h, show i - 12 < 4 by omega, show 12 + (i - 12) = i by omega]

theorem formatXNN_of_fields (w : Word) : formatXNN (fieldN4 w) (fieldX w) (fieldNN w) = w := by
  unfold fieldN4 fieldX fieldNN formatXNN
  apply BitVec.eq_of_getLsbD_eq
  intro i hi
  rw [BitVec.getLsbD_append, BitVec.getLsbD_append, BitVec.getLsbD_extractLsb',
    BitVec.getLsbD_extractLsb', BitVec.getLsbD_extractLsb']
  by_cases h : i < 8
  · simp [h, show i < 12 by omega]
  · by_cases h' : i < 12
    · simp [h, h', show i - 8 < 4 by omega, show 8 + (i - 8) = i by omega]
    · simp [h', show i - 12 < 4 by omega, show 12 + (i - 12) = i by omega]

theorem formatXYN_of_fields (w : Word) :
    formatXYN (fieldN4 w) (fieldX w) (fieldY w) (fieldN w) = w := by
  unfold fieldN4 fieldX fieldY fieldN formatXYN
  apply BitVec.eq_of_getLsbD_eq
  intro i hi
  rw [BitVec.getLsbD_append, BitVec.getLsbD_append, BitVec.getLsbD_append, BitVec.getLsbD_extractLsb',
    BitVec.getLsbD_extractLsb', BitVec.getLsbD_extractLsb', BitVec.getLsbD_extractLsb']
  by_cases h : i < 4
  · simp [h, show i < 12 by omega, show i < 8 by omega]
  · by_cases h' : i < 8
    · simp [h, h', show i < 12 by omega, show i - 4 < 4 by omega, show 4 + (i - 4) = i by omega]
    · by_cases h'' : i < 12
      · simp [h', h'', show i - 8 < 4 by omega, show 8 + (i - 8) = i by omega]
      · simp [h'', show i - 12 < 4 by omega, show 12 + (i - 12) = i by omega]

/-- A word is its major opcode, `x` and low byte. -/
theorem word_ext {v w : Word} (h4 : fieldN4 v = fieldN4 w) (hx : fieldX v = fieldX w)
    (hn : fieldNN v = fieldNN w) : v = w := by
  rw [← formatXNN_of_fields v, ← formatXNN_of_fields w, h4, hx, hn]

theorem fieldN4_and (v w : Word) : fieldN4 (v &&& w) = fieldN4 v &&& fieldN4 w := by
  simp [fieldN4, BitVec.extractLsb'_and]

theorem fieldX_and (v w : Word) : fieldX (v &&& w) = fieldX v &&& fieldX w := by
  simp [fieldX, BitVec.extractLsb'_and]

theorem fieldNN_and (v w : Word) : fieldNN (v &&& w) = fieldNN v &&& fieldNN w := by
  simp [fieldNN, BitVec.extractLsb'_and]

/-- The low byte of format `XYN` is `y` over `n`. -/
theorem fieldNN_formatXYN (a : BitVec 4) (x y : Reg) (n : Nibble) :
    fieldNN (formatXYN a x y n) = y ++ n := fieldNN_formatXNN a x (y ++ n)

/-- A low byte under the mask `0x0F` is its low nibble. -/
theorem append_and_low (y : Reg) (n : Nibble) : (y ++ n : Byte) &&& 0x0F#8 = 0#4 ++ n := by
  apply BitVec.eq_of_getLsbD_eq
  intro i hi
  rw [BitVec.getLsbD_and, BitVec.getLsbD_append, BitVec.getLsbD_append]
  interval_cases i <;> simp

end Sys2Proof
end

