-- ==== Sys2Proof/Laws/Memory.lean ====
section
/-! SUPPORT. Memory: a read after a write, and the canonical form kept by every operation. -/

namespace Sys2Proof.Machine

theorem Memory.read_forget (m : Memory) (a c : Nat) :
    Memory.read (Memory.forget m a) c = if c = a then Memory.unlisted a else Memory.read m c := by
  induction m with
  | nil => by_cases h : c = a <;> simp [Memory.forget, Memory.read, h]
  | cons p m ih =>
    obtain ⟨k, b⟩ := p
    by_cases hk : k = a
    · subst hk
      have : Memory.forget ((k, b) :: m) k = Memory.forget m k := by simp [Memory.forget]
      rw [this, ih]
      by_cases h : c = k <;> simp [Memory.read, h]
    · have : Memory.forget ((k, b) :: m) a = (k, b) :: Memory.forget m a := by simp [Memory.forget, hk]
      rw [this]
      simp only [Memory.read, ih]
      by_cases h : c = a
      · subst h; simp [Ne.symm hk]
      · simp [h]

theorem Memory.read_insert (m : Memory) (a : Nat) (b : Byte) (c : Nat) (h : ∀ p ∈ m, p.1 ≠ a) :
    Memory.read (Memory.insert a b m) c = if c = a then b else Memory.read m c := by
  induction m with
  | nil => simp [Memory.insert, Memory.read]
  | cons p m ih =>
    obtain ⟨k, d⟩ := p
    have hk : k ≠ a := h (k, d) (by simp)
    have ih := ih fun q hq => h q (by simp [hq])
    simp only [Memory.insert]
    split
    · simp [Memory.read]
    · simp only [Memory.read, ih]
      by_cases hc : c = a
      · subst hc; simp [Ne.symm hk]
      · simp [hc]

theorem Memory.forget_absent (m : Memory) (a : Nat) : ∀ p ∈ Memory.forget m a, p.1 ≠ a := by
  intro p hp
  simp only [Memory.forget, List.mem_filter, bne_iff_ne] at hp
  exact hp.2

/-- A read after a write, of any memory: the written byte there, every other byte as before. -/
@[simp] theorem Memory.read_write (m : Memory) (a : Nat) (b : Byte) (c : Nat) :
    Memory.read (Memory.write m a b) c = if c = a then b else Memory.read m c := by
  unfold Memory.write
  split
  · rename_i h; rw [Memory.read_forget, h]
  · rw [Memory.read_insert _ _ _ _ (Memory.forget_absent m a), Memory.read_forget]
    by_cases hc : c = a <;> simp [hc]

/-- The canonical form as a pairwise order and a condition on each entry. -/
theorem Memory.rising_iff (m : Memory) :
    Memory.rising m = true ↔ m.Pairwise fun p q => p.1 < q.1 := by
  induction m with
  | nil => simp [Memory.rising]
  | cons p m ih =>
    cases m with
    | nil => simp [Memory.rising]
    | cons q m =>
      obtain ⟨k, b⟩ := p
      obtain ⟨l, c⟩ := q
      rw [Memory.rising, Bool.and_eq_true, ih, decide_eq_true_iff]
      constructor
      · rintro ⟨hkl, hp⟩
        refine List.pairwise_cons.2 ⟨?_, hp⟩
        intro r hr
        rcases List.mem_cons.1 hr with rfl | hr
        · exact hkl
        · exact lt_trans hkl ((List.pairwise_cons.1 hp).1 r hr)
      · intro h
        have h := List.pairwise_cons.1 h
        exact ⟨h.1 (l, c) (by simp), h.2⟩

theorem Memory.wf_iff (m : Memory) :
    Memory.wf m = true ↔ (m.Pairwise fun p q => p.1 < q.1) ∧
      ∀ p ∈ m, p.1 < memSize ∧ p.2 ≠ Memory.unlisted p.1 := by
  simp [Memory.wf, Memory.rising_iff]

theorem Memory.mem_insert {a : Nat} {b : Byte} {m : Memory} {p : Host.Cell} :
    p ∈ Memory.insert a b m → p = (a, b) ∨ p ∈ m := by
  induction m with
  | nil => simp [Memory.insert]
  | cons q m ih =>
    simp only [Memory.insert]
    split
    · simp
    · rintro h
      rcases List.mem_cons.1 h with rfl | h
      · simp
      · rcases ih h with h | h <;> simp [h]

theorem Memory.insert_pairwise {a : Nat} {b : Byte} {m : Memory}
    (hm : m.Pairwise fun p q => p.1 < q.1) (ha : ∀ p ∈ m, p.1 ≠ a) :
    (Memory.insert a b m).Pairwise fun p q => p.1 < q.1 := by
  induction m with
  | nil => simp [Memory.insert]
  | cons q m ih =>
    obtain ⟨k, c⟩ := q
    have hq := List.pairwise_cons.1 hm
    have hk : k ≠ a := ha (k, c) (by simp)
    simp only [Memory.insert]
    split
    · rename_i hlt
      refine List.pairwise_cons.2 ⟨?_, hm⟩
      intro r hr
      rcases List.mem_cons.1 hr with rfl | hr
      · exact hlt
      · exact lt_trans hlt (hq.1 r hr)
    · refine List.pairwise_cons.2 ⟨?_, ih hq.2 fun p hp => ha p (by simp [hp])⟩
      intro r hr
      rcases Memory.mem_insert hr with rfl | hr
      · simp only; omega
      · exact hq.1 r hr

/-- Forgetting an entry keeps the canonical form. -/
theorem Memory.forget_wf {m : Memory} (h : Memory.wf m = true) (a : Nat) :
    Memory.wf (Memory.forget m a) = true := by
  rw [Memory.wf_iff] at *
  exact ⟨h.1.filter _, fun p hp => h.2 p (List.mem_of_mem_filter hp)⟩

/-- Inserting a byte that differs from the reset contents, at an address not listed, keeps the
canonical form. -/
theorem Memory.insert_wf {m : Memory} (h : Memory.wf m = true) {a : Nat} {b : Byte} (ha : a < memSize)
    (hb : b ≠ Memory.unlisted a) (hn : ∀ p ∈ m, p.1 ≠ a) :
    Memory.wf (Memory.insert a b m) = true := by
  rw [Memory.wf_iff] at *
  refine ⟨Memory.insert_pairwise h.1 hn, ?_⟩
  intro p hp
  rcases Memory.mem_insert hp with rfl | hp
  · exact ⟨ha, hb⟩
  · exact h.2 p hp

/-- A write inside `mem` keeps the canonical form. -/
theorem Memory.write_wf {m : Memory} (h : Memory.wf m = true) {a : Nat} (ha : a < memSize) (b : Byte) :
    Memory.wf (Memory.write m a b) = true := by
  unfold Memory.write
  split
  · exact Memory.forget_wf h a
  · rename_i hb
    exact Memory.insert_wf (Memory.forget_wf h a) ha hb (Memory.forget_absent m a)

theorem Memory.reset_wf : Memory.wf State.reset.mem = true := rfl

end Sys2Proof.Machine
end

