-- ==== Sys2Proof/Laws/State.lean ====
section
/-! SUPPORT. One lemma per field of State and update, true by rfl, and the reads through an update. -/

namespace Sys2Proof.Machine

/-! `State.writeV` -/

@[simp] theorem State.writeV_pc (s : State) (x : Reg) (b : Byte) : (s.writeV x b).pc = s.pc := rfl
@[simp] theorem State.writeV_mem (s : State) (x : Reg) (b : Byte) : (s.writeV x b).mem = s.mem := rfl
@[simp] theorem State.writeV_i (s : State) (x : Reg) (b : Byte) : (s.writeV x b).i = s.i := rfl
@[simp] theorem State.writeV_stack (s : State) (x : Reg) (b : Byte) : (s.writeV x b).stack = s.stack := rfl
@[simp] theorem State.writeV_dt (s : State) (x : Reg) (b : Byte) : (s.writeV x b).dt = s.dt := rfl
@[simp] theorem State.writeV_st (s : State) (x : Reg) (b : Byte) : (s.writeV x b).st = s.st := rfl
@[simp] theorem State.writeV_fb (s : State) (x : Reg) (b : Byte) : (s.writeV x b).fb = s.fb := rfl
@[simp] theorem State.writeV_dirty (s : State) (x : Reg) (b : Byte) : (s.writeV x b).dirty = s.dirty := rfl
@[simp] theorem State.writeV_keys (s : State) (x : Reg) (b : Byte) : (s.writeV x b).keys = s.keys := rfl
@[simp] theorem State.writeV_calls (s : State) (x : Reg) (b : Byte) : (s.writeV x b).calls = s.calls := rfl
@[simp] theorem State.writeV_result (s : State) (x : Reg) (b : Byte) : (s.writeV x b).result = s.result := rfl
@[simp] theorem State.writeV_errorSeen (s : State) (x : Reg) (b : Byte) : (s.writeV x b).errorSeen = s.errorSeen := rfl
@[simp] theorem State.writeV_draws (s : State) (x : Reg) (b : Byte) : (s.writeV x b).draws = s.draws := rfl
@[simp] theorem State.keyDown_writeV (s : State) (x : Reg) (b : Byte) (k : Fin 16) : (s.writeV x b).keyDown k = s.keyDown k := rfl

/-! `State.setPc` -/

@[simp] theorem State.setPc_pc (s : State) (a : Word) : (s.setPc a).pc = a := rfl
@[simp] theorem State.setPc_mem (s : State) (a : Word) : (s.setPc a).mem = s.mem := rfl
@[simp] theorem State.setPc_i (s : State) (a : Word) : (s.setPc a).i = s.i := rfl
@[simp] theorem State.setPc_v (s : State) (a : Word) : (s.setPc a).v = s.v := rfl
@[simp] theorem State.setPc_stack (s : State) (a : Word) : (s.setPc a).stack = s.stack := rfl
@[simp] theorem State.setPc_dt (s : State) (a : Word) : (s.setPc a).dt = s.dt := rfl
@[simp] theorem State.setPc_st (s : State) (a : Word) : (s.setPc a).st = s.st := rfl
@[simp] theorem State.setPc_fb (s : State) (a : Word) : (s.setPc a).fb = s.fb := rfl
@[simp] theorem State.setPc_dirty (s : State) (a : Word) : (s.setPc a).dirty = s.dirty := rfl
@[simp] theorem State.setPc_keys (s : State) (a : Word) : (s.setPc a).keys = s.keys := rfl
@[simp] theorem State.setPc_calls (s : State) (a : Word) : (s.setPc a).calls = s.calls := rfl
@[simp] theorem State.setPc_result (s : State) (a : Word) : (s.setPc a).result = s.result := rfl
@[simp] theorem State.setPc_errorSeen (s : State) (a : Word) : (s.setPc a).errorSeen = s.errorSeen := rfl
@[simp] theorem State.setPc_draws (s : State) (a : Word) : (s.setPc a).draws = s.draws := rfl
@[simp] theorem State.readV_setPc (s : State) (a : Word) (reg : Reg) : (s.setPc a).readV reg = s.readV reg := rfl
@[simp] theorem State.keyDown_setPc (s : State) (a : Word) (k : Fin 16) : (s.setPc a).keyDown k = s.keyDown k := rfl

/-! `State.setI` -/

@[simp] theorem State.setI_pc (s : State) (a : Word) : (s.setI a).pc = s.pc := rfl
@[simp] theorem State.setI_mem (s : State) (a : Word) : (s.setI a).mem = s.mem := rfl
@[simp] theorem State.setI_i (s : State) (a : Word) : (s.setI a).i = a := rfl
@[simp] theorem State.setI_v (s : State) (a : Word) : (s.setI a).v = s.v := rfl
@[simp] theorem State.setI_stack (s : State) (a : Word) : (s.setI a).stack = s.stack := rfl
@[simp] theorem State.setI_dt (s : State) (a : Word) : (s.setI a).dt = s.dt := rfl
@[simp] theorem State.setI_st (s : State) (a : Word) : (s.setI a).st = s.st := rfl
@[simp] theorem State.setI_fb (s : State) (a : Word) : (s.setI a).fb = s.fb := rfl
@[simp] theorem State.setI_dirty (s : State) (a : Word) : (s.setI a).dirty = s.dirty := rfl
@[simp] theorem State.setI_keys (s : State) (a : Word) : (s.setI a).keys = s.keys := rfl
@[simp] theorem State.setI_calls (s : State) (a : Word) : (s.setI a).calls = s.calls := rfl
@[simp] theorem State.setI_result (s : State) (a : Word) : (s.setI a).result = s.result := rfl
@[simp] theorem State.setI_errorSeen (s : State) (a : Word) : (s.setI a).errorSeen = s.errorSeen := rfl
@[simp] theorem State.setI_draws (s : State) (a : Word) : (s.setI a).draws = s.draws := rfl
@[simp] theorem State.readV_setI (s : State) (a : Word) (reg : Reg) : (s.setI a).readV reg = s.readV reg := rfl
@[simp] theorem State.keyDown_setI (s : State) (a : Word) (k : Fin 16) : (s.setI a).keyDown k = s.keyDown k := rfl

/-! `State.setDt` -/

@[simp] theorem State.setDt_pc (s : State) (b : Byte) : (s.setDt b).pc = s.pc := rfl
@[simp] theorem State.setDt_mem (s : State) (b : Byte) : (s.setDt b).mem = s.mem := rfl
@[simp] theorem State.setDt_i (s : State) (b : Byte) : (s.setDt b).i = s.i := rfl
@[simp] theorem State.setDt_v (s : State) (b : Byte) : (s.setDt b).v = s.v := rfl
@[simp] theorem State.setDt_stack (s : State) (b : Byte) : (s.setDt b).stack = s.stack := rfl
@[simp] theorem State.setDt_dt (s : State) (b : Byte) : (s.setDt b).dt = b := rfl
@[simp] theorem State.setDt_st (s : State) (b : Byte) : (s.setDt b).st = s.st := rfl
@[simp] theorem State.setDt_fb (s : State) (b : Byte) : (s.setDt b).fb = s.fb := rfl
@[simp] theorem State.setDt_dirty (s : State) (b : Byte) : (s.setDt b).dirty = s.dirty := rfl
@[simp] theorem State.setDt_keys (s : State) (b : Byte) : (s.setDt b).keys = s.keys := rfl
@[simp] theorem State.setDt_calls (s : State) (b : Byte) : (s.setDt b).calls = s.calls := rfl
@[simp] theorem State.setDt_result (s : State) (b : Byte) : (s.setDt b).result = s.result := rfl
@[simp] theorem State.setDt_errorSeen (s : State) (b : Byte) : (s.setDt b).errorSeen = s.errorSeen := rfl
@[simp] theorem State.setDt_draws (s : State) (b : Byte) : (s.setDt b).draws = s.draws := rfl
@[simp] theorem State.readV_setDt (s : State) (b : Byte) (reg : Reg) : (s.setDt b).readV reg = s.readV reg := rfl
@[simp] theorem State.keyDown_setDt (s : State) (b : Byte) (k : Fin 16) : (s.setDt b).keyDown k = s.keyDown k := rfl

/-! `State.setSt` -/

@[simp] theorem State.setSt_pc (s : State) (b : Byte) : (s.setSt b).pc = s.pc := rfl
@[simp] theorem State.setSt_mem (s : State) (b : Byte) : (s.setSt b).mem = s.mem := rfl
@[simp] theorem State.setSt_i (s : State) (b : Byte) : (s.setSt b).i = s.i := rfl
@[simp] theorem State.setSt_v (s : State) (b : Byte) : (s.setSt b).v = s.v := rfl
@[simp] theorem State.setSt_stack (s : State) (b : Byte) : (s.setSt b).stack = s.stack := rfl
@[simp] theorem State.setSt_dt (s : State) (b : Byte) : (s.setSt b).dt = s.dt := rfl
@[simp] theorem State.setSt_st (s : State) (b : Byte) : (s.setSt b).st = b := rfl
@[simp] theorem State.setSt_fb (s : State) (b : Byte) : (s.setSt b).fb = s.fb := rfl
@[simp] theorem State.setSt_dirty (s : State) (b : Byte) : (s.setSt b).dirty = s.dirty := rfl
@[simp] theorem State.setSt_keys (s : State) (b : Byte) : (s.setSt b).keys = s.keys := rfl
@[simp] theorem State.setSt_calls (s : State) (b : Byte) : (s.setSt b).calls = s.calls := rfl
@[simp] theorem State.setSt_result (s : State) (b : Byte) : (s.setSt b).result = s.result := rfl
@[simp] theorem State.setSt_errorSeen (s : State) (b : Byte) : (s.setSt b).errorSeen = s.errorSeen := rfl
@[simp] theorem State.setSt_draws (s : State) (b : Byte) : (s.setSt b).draws = s.draws := rfl
@[simp] theorem State.readV_setSt (s : State) (b : Byte) (reg : Reg) : (s.setSt b).readV reg = s.readV reg := rfl
@[simp] theorem State.keyDown_setSt (s : State) (b : Byte) (k : Fin 16) : (s.setSt b).keyDown k = s.keyDown k := rfl

/-! `State.setStack` -/

@[simp] theorem State.setStack_pc (s : State) (l : List Word) : (s.setStack l).pc = s.pc := rfl
@[simp] theorem State.setStack_mem (s : State) (l : List Word) : (s.setStack l).mem = s.mem := rfl
@[simp] theorem State.setStack_i (s : State) (l : List Word) : (s.setStack l).i = s.i := rfl
@[simp] theorem State.setStack_v (s : State) (l : List Word) : (s.setStack l).v = s.v := rfl
@[simp] theorem State.setStack_stack (s : State) (l : List Word) : (s.setStack l).stack = l := rfl
@[simp] theorem State.setStack_dt (s : State) (l : List Word) : (s.setStack l).dt = s.dt := rfl
@[simp] theorem State.setStack_st (s : State) (l : List Word) : (s.setStack l).st = s.st := rfl
@[simp] theorem State.setStack_fb (s : State) (l : List Word) : (s.setStack l).fb = s.fb := rfl
@[simp] theorem State.setStack_dirty (s : State) (l : List Word) : (s.setStack l).dirty = s.dirty := rfl
@[simp] theorem State.setStack_keys (s : State) (l : List Word) : (s.setStack l).keys = s.keys := rfl
@[simp] theorem State.setStack_calls (s : State) (l : List Word) : (s.setStack l).calls = s.calls := rfl
@[simp] theorem State.setStack_result (s : State) (l : List Word) : (s.setStack l).result = s.result := rfl
@[simp] theorem State.setStack_errorSeen (s : State) (l : List Word) : (s.setStack l).errorSeen = s.errorSeen := rfl
@[simp] theorem State.setStack_draws (s : State) (l : List Word) : (s.setStack l).draws = s.draws := rfl
@[simp] theorem State.readV_setStack (s : State) (l : List Word) (reg : Reg) : (s.setStack l).readV reg = s.readV reg := rfl
@[simp] theorem State.keyDown_setStack (s : State) (l : List Word) (k : Fin 16) : (s.setStack l).keyDown k = s.keyDown k := rfl

/-! `State.setFb` -/

@[simp] theorem State.setFb_pc (s : State) (f : Framebuffer) : (s.setFb f).pc = s.pc := rfl
@[simp] theorem State.setFb_mem (s : State) (f : Framebuffer) : (s.setFb f).mem = s.mem := rfl
@[simp] theorem State.setFb_i (s : State) (f : Framebuffer) : (s.setFb f).i = s.i := rfl
@[simp] theorem State.setFb_v (s : State) (f : Framebuffer) : (s.setFb f).v = s.v := rfl
@[simp] theorem State.setFb_stack (s : State) (f : Framebuffer) : (s.setFb f).stack = s.stack := rfl
@[simp] theorem State.setFb_dt (s : State) (f : Framebuffer) : (s.setFb f).dt = s.dt := rfl
@[simp] theorem State.setFb_st (s : State) (f : Framebuffer) : (s.setFb f).st = s.st := rfl
@[simp] theorem State.setFb_fb (s : State) (f : Framebuffer) : (s.setFb f).fb = f := rfl
@[simp] theorem State.setFb_dirty (s : State) (f : Framebuffer) : (s.setFb f).dirty = s.dirty := rfl
@[simp] theorem State.setFb_keys (s : State) (f : Framebuffer) : (s.setFb f).keys = s.keys := rfl
@[simp] theorem State.setFb_calls (s : State) (f : Framebuffer) : (s.setFb f).calls = s.calls := rfl
@[simp] theorem State.setFb_result (s : State) (f : Framebuffer) : (s.setFb f).result = s.result := rfl
@[simp] theorem State.setFb_errorSeen (s : State) (f : Framebuffer) : (s.setFb f).errorSeen = s.errorSeen := rfl
@[simp] theorem State.setFb_draws (s : State) (f : Framebuffer) : (s.setFb f).draws = s.draws := rfl
@[simp] theorem State.readV_setFb (s : State) (f : Framebuffer) (reg : Reg) : (s.setFb f).readV reg = s.readV reg := rfl
@[simp] theorem State.keyDown_setFb (s : State) (f : Framebuffer) (k : Fin 16) : (s.setFb f).keyDown k = s.keyDown k := rfl

/-! `State.setDirty` -/

@[simp] theorem State.setDirty_pc (s : State) (d : Bool) : (s.setDirty d).pc = s.pc := rfl
@[simp] theorem State.setDirty_mem (s : State) (d : Bool) : (s.setDirty d).mem = s.mem := rfl
@[simp] theorem State.setDirty_i (s : State) (d : Bool) : (s.setDirty d).i = s.i := rfl
@[simp] theorem State.setDirty_v (s : State) (d : Bool) : (s.setDirty d).v = s.v := rfl
@[simp] theorem State.setDirty_stack (s : State) (d : Bool) : (s.setDirty d).stack = s.stack := rfl
@[simp] theorem State.setDirty_dt (s : State) (d : Bool) : (s.setDirty d).dt = s.dt := rfl
@[simp] theorem State.setDirty_st (s : State) (d : Bool) : (s.setDirty d).st = s.st := rfl
@[simp] theorem State.setDirty_fb (s : State) (d : Bool) : (s.setDirty d).fb = s.fb := rfl
@[simp] theorem State.setDirty_dirty (s : State) (d : Bool) : (s.setDirty d).dirty = d := rfl
@[simp] theorem State.setDirty_keys (s : State) (d : Bool) : (s.setDirty d).keys = s.keys := rfl
@[simp] theorem State.setDirty_calls (s : State) (d : Bool) : (s.setDirty d).calls = s.calls := rfl
@[simp] theorem State.setDirty_result (s : State) (d : Bool) : (s.setDirty d).result = s.result := rfl
@[simp] theorem State.setDirty_errorSeen (s : State) (d : Bool) : (s.setDirty d).errorSeen = s.errorSeen := rfl
@[simp] theorem State.setDirty_draws (s : State) (d : Bool) : (s.setDirty d).draws = s.draws := rfl
@[simp] theorem State.readV_setDirty (s : State) (d : Bool) (reg : Reg) : (s.setDirty d).readV reg = s.readV reg := rfl
@[simp] theorem State.keyDown_setDirty (s : State) (d : Bool) (k : Fin 16) : (s.setDirty d).keyDown k = s.keyDown k := rfl

/-! `State.setKeys` -/

@[simp] theorem State.setKeys_pc (s : State) (k : Vector Bool 16) : (s.setKeys k).pc = s.pc := rfl
@[simp] theorem State.setKeys_mem (s : State) (k : Vector Bool 16) : (s.setKeys k).mem = s.mem := rfl
@[simp] theorem State.setKeys_i (s : State) (k : Vector Bool 16) : (s.setKeys k).i = s.i := rfl
@[simp] theorem State.setKeys_v (s : State) (k : Vector Bool 16) : (s.setKeys k).v = s.v := rfl
@[simp] theorem State.setKeys_stack (s : State) (k : Vector Bool 16) : (s.setKeys k).stack = s.stack := rfl
@[simp] theorem State.setKeys_dt (s : State) (k : Vector Bool 16) : (s.setKeys k).dt = s.dt := rfl
@[simp] theorem State.setKeys_st (s : State) (k : Vector Bool 16) : (s.setKeys k).st = s.st := rfl
@[simp] theorem State.setKeys_fb (s : State) (k : Vector Bool 16) : (s.setKeys k).fb = s.fb := rfl
@[simp] theorem State.setKeys_dirty (s : State) (k : Vector Bool 16) : (s.setKeys k).dirty = s.dirty := rfl
@[simp] theorem State.setKeys_keys (s : State) (k : Vector Bool 16) : (s.setKeys k).keys = k := rfl
@[simp] theorem State.setKeys_calls (s : State) (k : Vector Bool 16) : (s.setKeys k).calls = s.calls := rfl
@[simp] theorem State.setKeys_result (s : State) (k : Vector Bool 16) : (s.setKeys k).result = s.result := rfl
@[simp] theorem State.setKeys_errorSeen (s : State) (k : Vector Bool 16) : (s.setKeys k).errorSeen = s.errorSeen := rfl
@[simp] theorem State.setKeys_draws (s : State) (k : Vector Bool 16) : (s.setKeys k).draws = s.draws := rfl
@[simp] theorem State.readV_setKeys (s : State) (k : Vector Bool 16) (reg : Reg) : (s.setKeys k).readV reg = s.readV reg := rfl

/-! `State.setMem` -/

@[simp] theorem State.setMem_pc (s : State) (m : Memory) : (s.setMem m).pc = s.pc := rfl
@[simp] theorem State.setMem_mem (s : State) (m : Memory) : (s.setMem m).mem = m := rfl
@[simp] theorem State.setMem_i (s : State) (m : Memory) : (s.setMem m).i = s.i := rfl
@[simp] theorem State.setMem_v (s : State) (m : Memory) : (s.setMem m).v = s.v := rfl
@[simp] theorem State.setMem_stack (s : State) (m : Memory) : (s.setMem m).stack = s.stack := rfl
@[simp] theorem State.setMem_dt (s : State) (m : Memory) : (s.setMem m).dt = s.dt := rfl
@[simp] theorem State.setMem_st (s : State) (m : Memory) : (s.setMem m).st = s.st := rfl
@[simp] theorem State.setMem_fb (s : State) (m : Memory) : (s.setMem m).fb = s.fb := rfl
@[simp] theorem State.setMem_dirty (s : State) (m : Memory) : (s.setMem m).dirty = s.dirty := rfl
@[simp] theorem State.setMem_keys (s : State) (m : Memory) : (s.setMem m).keys = s.keys := rfl
@[simp] theorem State.setMem_calls (s : State) (m : Memory) : (s.setMem m).calls = s.calls := rfl
@[simp] theorem State.setMem_result (s : State) (m : Memory) : (s.setMem m).result = s.result := rfl
@[simp] theorem State.setMem_errorSeen (s : State) (m : Memory) : (s.setMem m).errorSeen = s.errorSeen := rfl
@[simp] theorem State.setMem_draws (s : State) (m : Memory) : (s.setMem m).draws = s.draws := rfl
@[simp] theorem State.readV_setMem (s : State) (m : Memory) (reg : Reg) : (s.setMem m).readV reg = s.readV reg := rfl
@[simp] theorem State.keyDown_setMem (s : State) (m : Memory) (k : Fin 16) : (s.setMem m).keyDown k = s.keyDown k := rfl

/-! `State.setResult` -/

@[simp] theorem State.setResult_pc (s : State) (r : CallResult) : (s.setResult r).pc = s.pc := rfl
@[simp] theorem State.setResult_mem (s : State) (r : CallResult) : (s.setResult r).mem = s.mem := rfl
@[simp] theorem State.setResult_i (s : State) (r : CallResult) : (s.setResult r).i = s.i := rfl
@[simp] theorem State.setResult_v (s : State) (r : CallResult) : (s.setResult r).v = s.v := rfl
@[simp] theorem State.setResult_stack (s : State) (r : CallResult) : (s.setResult r).stack = s.stack := rfl
@[simp] theorem State.setResult_dt (s : State) (r : CallResult) : (s.setResult r).dt = s.dt := rfl
@[simp] theorem State.setResult_st (s : State) (r : CallResult) : (s.setResult r).st = s.st := rfl
@[simp] theorem State.setResult_fb (s : State) (r : CallResult) : (s.setResult r).fb = s.fb := rfl
@[simp] theorem State.setResult_dirty (s : State) (r : CallResult) : (s.setResult r).dirty = s.dirty := rfl
@[simp] theorem State.setResult_keys (s : State) (r : CallResult) : (s.setResult r).keys = s.keys := rfl
@[simp] theorem State.setResult_calls (s : State) (r : CallResult) : (s.setResult r).calls = s.calls := rfl
@[simp] theorem State.setResult_result (s : State) (r : CallResult) : (s.setResult r).result = r := rfl
@[simp] theorem State.setResult_errorSeen (s : State) (r : CallResult) : (s.setResult r).errorSeen = s.errorSeen := rfl
@[simp] theorem State.setResult_draws (s : State) (r : CallResult) : (s.setResult r).draws = s.draws := rfl
@[simp] theorem State.readV_setResult (s : State) (r : CallResult) (reg : Reg) : (s.setResult r).readV reg = s.readV reg := rfl
@[simp] theorem State.keyDown_setResult (s : State) (r : CallResult) (k : Fin 16) : (s.setResult r).keyDown k = s.keyDown k := rfl

/-! `State.setCalls` -/

@[simp] theorem State.setCalls_pc (s : State) (c : List DriverCall) : (s.setCalls c).pc = s.pc := rfl
@[simp] theorem State.setCalls_mem (s : State) (c : List DriverCall) : (s.setCalls c).mem = s.mem := rfl
@[simp] theorem State.setCalls_i (s : State) (c : List DriverCall) : (s.setCalls c).i = s.i := rfl
@[simp] theorem State.setCalls_v (s : State) (c : List DriverCall) : (s.setCalls c).v = s.v := rfl
@[simp] theorem State.setCalls_stack (s : State) (c : List DriverCall) : (s.setCalls c).stack = s.stack := rfl
@[simp] theorem State.setCalls_dt (s : State) (c : List DriverCall) : (s.setCalls c).dt = s.dt := rfl
@[simp] theorem State.setCalls_st (s : State) (c : List DriverCall) : (s.setCalls c).st = s.st := rfl
@[simp] theorem State.setCalls_fb (s : State) (c : List DriverCall) : (s.setCalls c).fb = s.fb := rfl
@[simp] theorem State.setCalls_dirty (s : State) (c : List DriverCall) : (s.setCalls c).dirty = s.dirty := rfl
@[simp] theorem State.setCalls_keys (s : State) (c : List DriverCall) : (s.setCalls c).keys = s.keys := rfl
@[simp] theorem State.setCalls_calls (s : State) (c : List DriverCall) : (s.setCalls c).calls = c := rfl
@[simp] theorem State.setCalls_result (s : State) (c : List DriverCall) : (s.setCalls c).result = s.result := rfl
@[simp] theorem State.setCalls_errorSeen (s : State) (c : List DriverCall) : (s.setCalls c).errorSeen = s.errorSeen := rfl
@[simp] theorem State.setCalls_draws (s : State) (c : List DriverCall) : (s.setCalls c).draws = s.draws := rfl
@[simp] theorem State.readV_setCalls (s : State) (c : List DriverCall) (reg : Reg) : (s.setCalls c).readV reg = s.readV reg := rfl
@[simp] theorem State.keyDown_setCalls (s : State) (c : List DriverCall) (k : Fin 16) : (s.setCalls c).keyDown k = s.keyDown k := rfl

/-! `State.countDraw` -/

@[simp] theorem State.countDraw_pc (s : State) : s.countDraw.pc = s.pc := rfl
@[simp] theorem State.countDraw_mem (s : State) : s.countDraw.mem = s.mem := rfl
@[simp] theorem State.countDraw_i (s : State) : s.countDraw.i = s.i := rfl
@[simp] theorem State.countDraw_v (s : State) : s.countDraw.v = s.v := rfl
@[simp] theorem State.countDraw_stack (s : State) : s.countDraw.stack = s.stack := rfl
@[simp] theorem State.countDraw_dt (s : State) : s.countDraw.dt = s.dt := rfl
@[simp] theorem State.countDraw_st (s : State) : s.countDraw.st = s.st := rfl
@[simp] theorem State.countDraw_fb (s : State) : s.countDraw.fb = s.fb := rfl
@[simp] theorem State.countDraw_dirty (s : State) : s.countDraw.dirty = s.dirty := rfl
@[simp] theorem State.countDraw_keys (s : State) : s.countDraw.keys = s.keys := rfl
@[simp] theorem State.countDraw_calls (s : State) : s.countDraw.calls = s.calls := rfl
@[simp] theorem State.countDraw_result (s : State) : s.countDraw.result = s.result := rfl
@[simp] theorem State.countDraw_errorSeen (s : State) : s.countDraw.errorSeen = s.errorSeen := rfl
@[simp] theorem State.countDraw_draws (s : State) : s.countDraw.draws = s.draws + 1 := rfl
@[simp] theorem State.readV_countDraw (s : State) (reg : Reg) : s.countDraw.readV reg = s.readV reg := rfl
@[simp] theorem State.keyDown_countDraw (s : State) (k : Fin 16) : s.countDraw.keyDown k = s.keyDown k := rfl

/-! `State.fail` -/

@[simp] theorem State.fail_pc (s : State) (e : OpError) : (s.fail e).pc = s.pc := rfl
@[simp] theorem State.fail_mem (s : State) (e : OpError) : (s.fail e).mem = s.mem := rfl
@[simp] theorem State.fail_i (s : State) (e : OpError) : (s.fail e).i = s.i := rfl
@[simp] theorem State.fail_v (s : State) (e : OpError) : (s.fail e).v = s.v := rfl
@[simp] theorem State.fail_stack (s : State) (e : OpError) : (s.fail e).stack = s.stack := rfl
@[simp] theorem State.fail_dt (s : State) (e : OpError) : (s.fail e).dt = s.dt := rfl
@[simp] theorem State.fail_st (s : State) (e : OpError) : (s.fail e).st = s.st := rfl
@[simp] theorem State.fail_fb (s : State) (e : OpError) : (s.fail e).fb = s.fb := rfl
@[simp] theorem State.fail_dirty (s : State) (e : OpError) : (s.fail e).dirty = s.dirty := rfl
@[simp] theorem State.fail_keys (s : State) (e : OpError) : (s.fail e).keys = s.keys := rfl
@[simp] theorem State.fail_calls (s : State) (e : OpError) : (s.fail e).calls = s.calls := rfl
@[simp] theorem State.fail_result (s : State) (e : OpError) : (s.fail e).result = .error e := rfl
@[simp] theorem State.fail_errorSeen (s : State) (e : OpError) : (s.fail e).errorSeen = true := rfl
@[simp] theorem State.fail_draws (s : State) (e : OpError) : (s.fail e).draws = s.draws := rfl
@[simp] theorem State.readV_fail (s : State) (e : OpError) (reg : Reg) : (s.fail e).readV reg = s.readV reg := rfl
@[simp] theorem State.keyDown_fail (s : State) (e : OpError) (k : Fin 16) : (s.fail e).keyDown k = s.keyDown k := rfl

/-- Reading a register after a write: the written register has the value, every other its own. -/
@[simp] theorem State.readV_writeV (s : State) (x r : Reg) (b : Byte) :
    (s.writeV x b).readV r = if r = x then b else s.readV r := by
  unfold State.readV State.writeV
  simp only [Vector.getElem_set, BitVec.toNat_inj]
  simp only [eq_comm]

/-- Two states with the same registers read the same register file. -/
theorem State.v_eq_of_readV {s t : State} (h : ∀ r, t.readV r = s.readV r) : t.v = s.v := by
  apply Vector.ext
  intro k hk
  have := h (BitVec.ofNat 4 k)
  unfold State.readV at this
  simpa [Nat.mod_eq_of_lt hk] using this

/-- A skip changes `pc` alone. -/
theorem State.skipIf_eq (s : State) (c : Bool) : s.skipIf c = s.setPc (if c then s.pc + 2 else s.pc) := by
  cases c <;> rfl

end Sys2Proof.Machine
end

