-- ==== Sys2Proof/Laws/Ops.lean ====
section
/-! SUPPORT. What each shared operation can do, said once. -/

namespace Sys2Proof.Machine

theorem State.readByte_inside (s : State) {a : Nat} (h : a < memSize) :
    s.readByte a = .ok (Memory.read s.mem a) := if_pos h

theorem State.writeByte_inside (s : State) {a : Nat} (b : Byte) (h : a < memSize) :
    s.writeByte a b = .ok (s.setMem (Memory.write s.mem a b)) := if_pos h

/-- A range inside `mem` reads its bytes. -/
theorem State.readBytes_inside (s : State) (a n : Nat) (h : a + n ≤ memSize) :
    s.readBytes a n = .ok ((List.range n).map fun k => Memory.read s.mem (a + k)) := by
  induction n generalizing a with
  | zero => rfl
  | succ n ih =>
    rw [State.readBytes, s.readByte_inside (by omega)]
    simp only [ih (a + 1) (by omega), List.range_succ_eq_map, List.map_cons, List.map_map]
    simp only [Function.comp_def, Nat.add_assoc, Nat.add_comm 1, Nat.add_zero, Nat.succ_eq_add_one]

/-- Bytes written to a range inside `mem`: only memory changes, the range reads as written, every
other byte as before, and the canonical form is kept. -/
theorem State.writeBytes_inside (s : State) (a : Nat) (bs : List Byte) (h : a + bs.length ≤ memSize) :
    ∃ m, s.writeBytes a bs = .ok (s.setMem m) ∧
      (∀ c, Memory.read m c =
        if a ≤ c ∧ c < a + bs.length then bs.getD (c - a) 0 else Memory.read s.mem c) ∧
      (Memory.wf s.mem = true → Memory.wf m = true) := by
  induction bs generalizing s a with
  | nil => exact ⟨s.mem, rfl, fun c => (if_neg (by simp only [List.length_nil]; omega)).symm, id⟩
  | cons b bs ih =>
    simp only [List.length_cons] at h
    obtain ⟨m, hm, hr, hw⟩ := ih (s.setMem (Memory.write s.mem a b)) (a + 1) (by omega)
    refine ⟨m, ?_, ?_, ?_⟩
    · rw [State.writeBytes, s.writeByte_inside b (by omega)]; exact hm
    · intro c
      rw [hr, State.setMem_mem, Memory.read_write, List.length_cons]
      by_cases hc : c = a
      · subst hc
        rw [if_neg (by omega), if_pos rfl, if_pos (by omega)]; simp
      · by_cases hin : a + 1 ≤ c ∧ c < a + 1 + bs.length
        · rw [if_pos hin, if_pos (by omega), show c - a = (c - (a + 1)) + 1 by omega]; simp
        · rw [if_neg hin, if_neg hc, if_neg (by omega)]
    · intro hs; exact hw (Memory.write_wf hs (by omega) b)

/-- The range check in numbers. -/
theorem State.rangeInMem_iff (s : State) (len : Nat) :
    s.rangeInMem len = true ↔ len = 0 ∨ s.i.toNat + (len - 1) ≤ 0xFFF := by
  simp [State.rangeInMem]

/-- A range inside `mem`: the access runs. -/
theorem State.withRange_inside (s : State) {len : Nat} (k : Answer) (h : s.rangeInMem len = true) :
    s.withRange len k = k := if_pos h

/-- A range past `mem`: `IndexRegisterError`. -/
theorem State.withRange_outside (s : State) {len : Nat} (k : Answer) (h : s.rangeInMem len = false) :
    s.withRange len k = s.raise (.indexRegister (idxErrorAddr s.i.toNat (s.i.toNat + (len - 1)))) :=
  if_neg (by simp [h])

/-- A range of bytes inside `mem` that is read. -/
theorem State.withBytes_inside (s : State) {len : Nat} (k : List Byte → Answer)
    (h : s.rangeInMem len = true) :
    withBytes (s.readBytes s.i.toNat len) k =
      k ((List.range len).map fun j => Memory.read s.mem (s.i.toNat + j)) := by
  rcases (s.rangeInMem_iff len).1 h with rfl | h'
  · rfl
  · cases len with
    | zero => rfl
    | succ n => rw [s.readBytes_inside _ _ (by unfold memSize; omega)]; rfl

/-- A raised error is a next state. -/
theorem State.raise_eq (s : State) (e : OpError) : s.raise e = .next (s.afterExecError e) := rfl

/-- `pc` after an error is the `pc` the instruction sees, or 2 less (D10). -/
theorem pcAfterError_cases (pc : Word) : pcAfterError pc = pc ∨ pcAfterError pc = pc - 2 := by
  unfold pcAfterError
  cases Config.pcAfterExecError <;> simp

theorem pcErrorAddr_cases (pc : Word) : pcErrorAddr pc = pc.toNat ∨ pcErrorAddr pc = pc.toNat + 1 := by
  unfold pcErrorAddr
  cases Config.pcErrorCarriesNext pc <;> simp

theorem idxErrorAddr_cases (a b : Nat) : idxErrorAddr a b = a ∨ idxErrorAddr a b = b := by
  unfold idxErrorAddr
  cases Config.idxErrorCarriesLast a b <;> simp

/-- Putting registers changes the registers alone. -/
theorem State.putRegs_only_regs (s : State) (k : Nat) (bs : List Byte) :
    ∃ w, s.putRegs k bs = { s with v := w } := by
  induction bs generalizing s k with
  | nil => exact ⟨s.v, rfl⟩
  | cons b bs ih =>
    obtain ⟨w, hw⟩ := ih (s.writeV (BitVec.ofNat 4 k) b) (k + 1)
    exact ⟨w, hw⟩

/-- Registers `k` up hold the bytes put there, every other register its own value. -/
theorem State.readV_putRegs (s : State) (k : Nat) (bs : List Byte) (h : k + bs.length ≤ 16) (r : Reg) :
    (s.putRegs k bs).readV r =
      if k ≤ r.toNat ∧ r.toNat < k + bs.length then bs.getD (r.toNat - k) 0 else s.readV r := by
  induction bs generalizing s k with
  | nil => exact (if_neg (by simp only [List.length_nil]; omega)).symm
  | cons b bs ih =>
    simp only [List.length_cons] at h ⊢
    rw [State.putRegs, ih _ _ (by omega), State.readV_writeV]
    have hk : r = BitVec.ofNat 4 k ↔ r.toNat = k := by
      rw [← BitVec.toNat_inj, BitVec.toNat_ofNat, Nat.mod_eq_of_lt (by omega)]
    by_cases hc : r.toNat = k
    · rw [if_neg (by omega), if_pos (hk.2 hc), if_pos (by omega)]; simp [hc]
    · by_cases hin : k + 1 ≤ r.toNat ∧ r.toNat < k + 1 + bs.length
      · rw [if_pos hin, if_pos (by omega), show r.toNat - k = (r.toNat - (k + 1)) + 1 by omega]; simp
      · rw [if_neg hin, if_neg (fun e => hc (hk.1 e)), if_neg (by omega)]

@[simp] theorem State.firstRegs_length (s : State) (n : Nat) : (s.firstRegs n).length = n := by
  simp [State.firstRegs]

theorem State.firstRegs_getD (s : State) {n k : Nat} (h : k < n) :
    (s.firstRegs n).getD k 0 = s.readV (BitVec.ofNat 4 k) := by
  simp [State.firstRegs, List.getD, h]

@[simp] theorem bcdDigits_length (b : Byte) : (bcdDigits b).length = 3 := by simp [bcdDigits]

theorem regCount_le (x : Reg) : regCount x ≤ 16 := by
  have := x.isLt
  unfold regCount
  omega

end Sys2Proof.Machine
end

