-- ==== Sys2Proof/Laws/Frame.lean ====
section
/-! SUPPORT. What the shared updates leave unchanged, in the terms of Safety.lean, and the answers of the range check and of the key search. -/

namespace Sys2Proof.Machine

/-- Any state changes nothing of itself. -/
theorem onlyChanges_refl (s : State) : OnlyChanges [] s s := by
  intro e _; cases e <;> simp [Element.same]

theorem State.setPc_frame (s : State) (a : Word) : OnlyChanges [.pc] s (s.setPc a) := by
  intro e he; cases e <;> simp_all [Element.same]

theorem State.setI_frame (s : State) (a : Word) : OnlyChanges [.i] s (s.setI a) := by
  intro e he; cases e <;> simp_all [Element.same]

/-- A skip moves `pc` alone. -/
theorem State.skipIf_frame (s : State) (c : Bool) : OnlyChanges [.pc] s (s.skipIf c) := by
  rw [State.skipIf_eq]; exact s.setPc_frame _

/-- A register write changes that register alone. -/
theorem State.writeV_frame (s : State) (x : Reg) (b : Byte) :
    RegsSameBut [x] s (s.writeV x b) ∧ OnlyChanges [.regs] s (s.writeV x b) := by
  constructor
  · intro r hr; simp only [List.mem_singleton] at hr; simp [hr]
  · intro e he; cases e <;> simp_all [Element.same]

/-- A result with its flag: the two registers alone change, and `VF` holds the flag. -/
theorem State.writeWithFlag_frame (s : State) (x : Reg) (a b : Byte) :
    (s.writeWithFlag x a b).readV 0xF = b ∧ (x ≠ 0xF → (s.writeWithFlag x a b).readV x = a) ∧
      RegsSameBut [x, 0xF] s (s.writeWithFlag x a b) ∧
      OnlyChanges [.regs] s (s.writeWithFlag x a b) := by
  unfold State.writeWithFlag regVF
  refine ⟨by simp, fun h => ?_, ?_, ?_⟩
  · rw [State.readV_writeV, if_neg h, State.readV_writeV, if_pos rfl]
  · intro r hr
    simp only [List.mem_cons, List.not_mem_nil, or_false, not_or] at hr
    rw [State.readV_writeV, if_neg hr.2, State.readV_writeV, if_neg hr.1]
  · intro e he; cases e <;> simp_all [Element.same]

/-- An error leaves what R305 says it leaves. -/
theorem State.afterExecError_leaves (s : State) (e : OpError) : LeavesError e s (s.afterExecError e) := by
  refine ⟨rfl, rfl, pcAfterError_cases s.pc, ?_⟩
  intro el he; cases el <;> simp_all [Element.same, State.afterExecError]

/-- The range check answers its access or the error, and nothing else. -/
theorem State.withRange_cases (s : State) (len : Nat) (k : Answer) :
    (s.rangeInMem len = true ∧ s.withRange len k = k) ∨
      (s.rangeInMem len = false ∧ ∃ a, (a = s.i.toNat ∨ a = s.i.toNat + (len - 1)) ∧
        s.withRange len k = .next (s.afterExecError (.indexRegister a))) := by
  cases h : s.rangeInMem len
  · exact .inr ⟨rfl, _, idxErrorAddr_cases _ _, s.withRange_outside k h⟩
  · exact .inl ⟨rfl, s.withRange_inside k h⟩

/-- The fetch moves `pc` and sets the returned value. -/
theorem State.fetched_frame (s : State) : OnlyChanges [.pc, .result] s s.fetched := by
  intro e he; cases e <;> simp_all [Element.same, State.fetched]

/-- A sprite draw changes pixels, `VF` and `dirty`. -/
theorem State.drawSprite_frame (s : State) (x y : Reg) (bs : List Byte) :
    (s.drawSprite x y bs).dirty = true ∧ RegsSameBut [0xF] s (s.drawSprite x y bs) ∧
      OnlyChanges [.fb, .dirty, .regs] s (s.drawSprite x y bs) := by
  refine ⟨rfl, ?_, ?_⟩
  · intro r hr
    simp only [List.mem_singleton] at hr
    show ((s.setFb _).writeV regVF _).readV r = s.readV r
    rw [State.readV_writeV, if_neg (show ¬r = regVF from hr)]; rfl
  · intro e he; cases e <;> simp_all [Element.same, State.drawSprite]

theorem State.lowestKey_none (s : State) (h : ∀ k, s.keyDown k = false) : s.lowestKey = none := by
  unfold State.lowestKey
  rw [List.find?_eq_none]
  intro k _; simp [h k]

theorem State.lowestKey_some (s : State) (k : Fin 16) (h : s.keyDown k = true)
    (hl : ∀ j, j < k → s.keyDown j = false) : s.lowestKey = some k := by
  unfold State.lowestKey
  rw [List.find?_eq_some_iff_getElem]
  refine ⟨h, k.val, by simp, by simp, ?_⟩
  intro j hj; simp; exact hl ⟨j, by omega⟩ hj

end Sys2Proof.Machine
end

