-- ==== Sys2Proof/Laws/Cycle.lean ====
section
/-! SUPPORT. What a driver call, a cycle and a load can answer, and what is fetched after an instruction is placed. -/

namespace Sys2Proof.Machine

/-- A listed call is made, and taken off the list. -/
theorem step_of_listed {s : State} {d : DriverCall} {rest : List DriverCall} (h : s.calls = d :: rest) :
    step s = (s.setCalls rest).perform d := by
  unfold step State.nextCall; rw [h]

/-- With no call listed the step is a cycle. -/
theorem step_of_none {s : State} (h : s.calls = []) : step s = s.cycle := by
  unfold step State.nextCall; rw [h]; rfl

theorem step_of_cycle {s c : State} (h : s.nextCall = (.cycle, c)) : step s = c.cycle := by
  unfold step; rw [h]; rfl

/-- Taking the next call off the list changes nothing but the list. -/
theorem State.nextCall_eq (s : State) : ∃ l, s.nextCall.2 = s.setCalls l := by
  unfold State.nextCall
  split
  · exact ⟨s.calls, rfl⟩
  · exact ⟨_, rfl⟩

/-- A cycle with both bytes inside `mem` executes what they decode to. -/
theorem State.cycle_inside (s : State) (h : s.pc.toNat + 1 < 4096) :
    s.cycle = s.fetched.dispatch (decode s.wordAtPc) := by
  unfold State.cycle
  rw [if_pos (by unfold State.fetchInMem memSize; exact decide_eq_true h),
    s.readByte_inside (by unfold memSize; omega), s.readByte_inside (by unfold memSize; omega)]
  rfl

/-- A cycle past `mem`: the error. -/
theorem State.cycle_outside (s : State) (h : 4096 ≤ s.pc.toNat + 1) : s.cycle = .next s.fetchError := by
  unfold State.cycle
  rw [if_neg (by unfold State.fetchInMem memSize; rw [decide_eq_true_iff]; omega)]

/-- Everything a cycle can be. -/
theorem State.cycle_cases (s : State) :
    (4096 ≤ s.pc.toNat + 1 ∧ s.cycle = .next s.fetchError) ∨
      (s.pc.toNat + 1 < 4096 ∧ ((∃ i, s.cycle = exec i s.fetched) ∨
        ∃ w, s.cycle = .next (s.fetched.afterExecError (.opcode w)))) := by
  by_cases h : s.pc.toNat + 1 < 4096
  · refine .inr ⟨h, ?_⟩
    rw [s.cycle_inside h]
    cases decode s.wordAtPc with
    | instr i => exact .inl ⟨i, rfl⟩
    | illegal w => exact .inr ⟨w, rfl⟩
  · exact .inl ⟨by omega, s.cycle_outside (by omega)⟩

/-- Everything a load can be: the bytes from `0x200` up with the canonical form kept, or the error. -/
theorem State.loadCall_cases (s : State) (bs : List Byte) :
    (2560 < bs.length ∧ s.loadCall bs = .next (s.fail .size)) ∨
      (bs.length ≤ 2560 ∧ ∃ m, s.loadCall bs = .next ((s.setResult .ok).setMem m) ∧
        (∀ c, Memory.read m c =
          if 0x200 ≤ c ∧ c < 0x200 + bs.length then bs.getD (c - 0x200) 0 else Memory.read s.mem c) ∧
        (Memory.wf s.mem = true → Memory.wf m = true)) := by
  unfold State.loadCall
  by_cases h : loadCap < bs.length
  · exact .inl ⟨h, if_pos h⟩
  · have h' : bs.length ≤ 2560 := by unfold loadCap at h; omega
    obtain ⟨m, hm, hr, hw⟩ :=
      (s.setResult .ok).writeBytes_inside programBase bs (by unfold programBase memSize; omega)
    exact .inr ⟨h', m, by rw [if_neg h, hm]; rfl, hr, hw⟩

/-- The word placed for the next fetch is the word fetched, and that fetch lies inside `mem`. -/
theorem State.placeAtFetch_fetches (s : State) (w : Word) :
    (s.placeAtFetch w).wordAtPc = w ∧ (s.placeAtFetch w).pc.toNat + 1 < 4096 ∧
      (s.placeAtFetch w).calls = [] := by
  refine ⟨?_, ?_, rfl⟩
  · unfold State.placeAtFetch State.wordAtPc
    simp [wordOfBytes_highByte_lowByte]
  · unfold State.placeAtFetch
    by_cases h : s.fetchInMem = true
    · have : s.pc.toNat + 1 < 4096 := of_decide_eq_true h
      simpa [h] using this
    · simp [h]

/-- `step (s.withFetchWord nbits w)` runs exactly what the table's word decodes to. -/
theorem step_withFetchWord (s : State) (nbits w : Nat) (i : Instr)
    (h : decode (tableWord nbits w) = .instr i) :
    step (s.withFetchWord nbits w) = exec i (s.withFetchWord nbits w).fetched := by
  obtain ⟨hw, hp, hc⟩ := s.placeAtFetch_fetches (tableWord nbits w)
  show step (s.placeAtFetch (tableWord nbits w)) = _
  rw [step_of_none hc]
  rw [State.cycle_inside _ hp, hw, h]
  rfl

end Sys2Proof.Machine
end

