-- ==== Sys2Proof/Laws/Display.lean ====
section
/-! SUPPORT. Pixels: a read after a toggle, and a row or a sprite as one mask laid over the screen (spec/43_display.md R240). -/

namespace Sys2Proof.Machine

theorem Framebuffer.ext_pixel {f g : Framebuffer} (h : ∀ px py, f.pixel px py = g.pixel px py) : f = g := by
  apply Vector.ext
  intro j hj
  apply Vector.ext
  intro k hk
  exact h ⟨k, hk⟩ ⟨j, hj⟩

@[simp] theorem Framebuffer.pixel_toggle (f : Framebuffer) (px qx : Fin 64) (py qy : Fin 32) :
    (f.toggle px py).pixel qx qy = (f.pixel qx qy ^^ (decide (qx = px) && decide (qy = py))) := by
  unfold Framebuffer.toggle Framebuffer.pixel
  by_cases hy : qy = py
  · subst hy
    by_cases hx : qx = px
    · subst hx; simp
    · have : px.val ≠ qx.val := fun e => hx (Fin.ext e.symm)
      simp [hx, this]
  · have : py.val ≠ qy.val := fun e => hy (Fin.ext e.symm)
    simp [hy, this]

@[simp] theorem Framebuffer.pixel_blank (px : Fin 64) (py : Fin 32) :
    Framebuffer.blank.pixel px py = false := by
  simp [Framebuffer.blank, Framebuffer.pixel]

/-- Element `y*64+x` of the view is pixel `(x, y)`. -/
theorem Framebuffer.view_pixel (f : Framebuffer) (px : Fin 64) (py : Fin 32) :
    f.view[py.val * 64 + px.val]'(by omega) = f.pixel px py := by
  unfold Framebuffer.view
  rw [Vector.getElem_ofFn]
  congr 1 <;> apply Fin.ext <;> simp only <;> omega

/-- The canvas `c` after the cells of `mask`: each pixel of the mask toggled, and a collision noted
when a lit pixel was among them. -/
def Canvas.Masked (mask : Fin 64 → Fin 32 → Bool) (c d : Canvas) : Prop :=
  (∀ px py, d.1.pixel px py = (c.1.pixel px py ^^ mask px py)) ∧
    (d.2 = true ↔ c.2 = true ∨ ∃ px py, c.1.pixel px py = true ∧ mask px py = true)

theorem Canvas.masked_nothing (c : Canvas) : Canvas.Masked (fun _ _ => false) c c := by
  simp [Canvas.Masked]

theorem Canvas.masked_cell (px : Fin 64) (py : Fin 32) (c : Canvas) :
    Canvas.Masked (fun qx qy => decide (qx = px) && decide (qy = py)) c (drawCell px py c) := by
  constructor
  · intro qx qy; simp [drawCell]
  · simp [drawCell]

/-- Two masks without a common pixel, one after the other, are their union. -/
theorem Canvas.masked_trans {m₁ m₂ : Fin 64 → Fin 32 → Bool} {c d e : Canvas}
    (h₁ : Canvas.Masked m₁ c d) (h₂ : Canvas.Masked m₂ d e)
    (hd : ∀ px py, m₁ px py = true → m₂ px py = false) :
    Canvas.Masked (fun px py => m₁ px py || m₂ px py) c e := by
  constructor
  · intro px py
    rw [h₂.1, h₁.1]
    have := hd px py
    cases h : m₁ px py <;> cases h' : m₂ px py <;> simp_all
  · rw [h₂.2, h₁.2]
    constructor
    · rintro ((h | ⟨px, py, h, hm⟩) | ⟨px, py, h, hm⟩)
      · exact .inl h
      · exact .inr ⟨px, py, h, by simp [hm]⟩
      · refine .inr ⟨px, py, ?_, by simp [hm]⟩
        have h1 : m₁ px py = false := by
          by_contra hne
          have := hd px py (by simpa using hne)
          simp [hm] at this
        rw [h₁.1, h1] at h
        simpa using h
    · rintro (h | ⟨px, py, h, hm⟩)
      · exact .inl (.inl h)
      · cases h1 : m₁ px py
        · simp only [h1, Bool.false_or] at hm
          exact .inr ⟨px, py, by rw [h₁.1, h, h1]; rfl, hm⟩
        · exact .inl (.inr ⟨px, py, h, h1⟩)

theorem Canvas.Masked.congr {m₁ m₂ : Fin 64 → Fin 32 → Bool} {c d : Canvas}
    (h : Canvas.Masked m₁ c d) (e : ∀ px py, m₁ px py = m₂ px py) : Canvas.Masked m₂ c d := by
  have : m₁ = m₂ := funext fun px => funext fun py => e px py
  exact this ▸ h

/-- The mask of the first `n` columns of one sprite row. -/
def rowMask (x0 : Nat) (py : Fin 32) (b : Byte) (n : Nat) (qx : Fin 64) (qy : Fin 32) : Bool :=
  decide (qy = py) && (List.range n).any fun col => spriteBit b col && decide (qx = wrapCol (x0 + col))

/-- A sprite row is its mask. -/
theorem drawRow_masked (x0 : Nat) (py : Fin 32) (b : Byte) (c : Canvas) :
    Canvas.Masked (rowMask x0 py b 8) c (drawRow x0 py b c) := by
  suffices h : ∀ n ≤ 8, Canvas.Masked (rowMask x0 py b n) c
      ((List.range n).foldl
        (fun acc col => if spriteBit b col then drawCell (wrapCol (x0 + col)) py acc else acc) c) from
    h 8 (le_refl 8)
  intro n hn
  induction n with
  | zero => exact (Canvas.masked_nothing c).congr fun _ _ => by simp [rowMask]
  | succ n ih =>
    have ih := ih (by omega)
    rw [List.range_succ, List.foldl_append]
    simp only [List.foldl_cons, List.foldl_nil]
    split
    · rename_i hb
      refine (Canvas.masked_trans ih (Canvas.masked_cell (wrapCol (x0 + n)) py _) ?_).congr ?_
      · intro qx qy hm
        simp only [rowMask, Bool.and_eq_true, decide_eq_true_eq, List.any_eq_true, List.mem_range] at hm
        obtain ⟨hy, k, hk, hbit, hx⟩ := hm
        have hne : qx ≠ wrapCol (x0 + n) := by
          intro e
          have := congrArg Fin.val (hx.symm.trans e)
          simp only [wrapCol] at this
          omega
        simp [hne]
      · intro qx qy
        simp only [rowMask, List.range_succ, List.any_append, List.any_cons, List.any_nil, hb, Bool.or_false,
          Bool.true_and]
        by_cases hy : qy = py <;> simp [hy]
    · rename_i hb
      refine ih.congr fun qx qy => ?_
      simp only [rowMask, List.range_succ, List.any_append, List.any_cons, List.any_nil]
      simp [hb]

/-- The mask of rows drawn downward from `y0`. -/
def rowsMask (x0 y0 : Nat) (bs : List Byte) (qx : Fin 64) (qy : Fin 32) : Bool :=
  (List.range bs.length).any fun j => rowMask x0 (wrapRow (y0 + j)) (bs.getD j 0) 8 qx qy

/-- Up to 32 rows are their mask: no pixel is drawn twice (R240). -/
theorem drawRows_masked (x0 y0 : Nat) (bs : List Byte) (c : Canvas) (h : bs.length ≤ 32) :
    Canvas.Masked (rowsMask x0 y0 bs) c (drawRows x0 y0 bs c) := by
  induction bs generalizing y0 c with
  | nil => exact (Canvas.masked_nothing c).congr fun _ _ => by simp [rowsMask]
  | cons b bs ih =>
    simp only [List.length_cons] at h
    refine (Canvas.masked_trans (drawRow_masked x0 (wrapRow y0) b c) (ih (y0 + 1) _ (by omega)) ?_).congr ?_
    · intro qx qy hm
      simp only [rowMask, Bool.and_eq_true, decide_eq_true_eq] at hm
      simp only [rowsMask, List.any_eq_false, List.mem_range]
      intro j hj
      have hne : qy ≠ wrapRow (y0 + 1 + j) := by
        intro e
        have := congrArg Fin.val (hm.1.symm.trans e)
        simp only [wrapRow] at this
        omega
      simp [rowMask, hne]
    · intro qx qy
      simp only [rowsMask, List.length_cons, List.range_succ_eq_map, List.any_cons, List.any_map]
      simp [Function.comp_def, Nat.add_assoc, Nat.add_comm 1]

/-- The mask at a pixel, by its offset from the start column and row. -/
theorem rowsMask_eq (x0 y0 : Nat) (bs : List Byte) (hx : x0 < 256) (hy : y0 < 256) (h : bs.length ≤ 32)
    (qx : Fin 64) (qy : Fin 32) :
    rowsMask x0 y0 bs qx qy =
      (decide ((qx.val + 256 - x0) % 64 < 8) && decide ((qy.val + 256 - y0) % 32 < bs.length) &&
        spriteBit (bs.getD ((qy.val + 256 - y0) % 32) 0) ((qx.val + 256 - x0) % 64)) := by
  rw [Bool.eq_iff_iff]
  simp only [rowsMask, rowMask, List.any_eq_true, List.mem_range, Bool.and_eq_true, decide_eq_true_eq]
  constructor
  · rintro ⟨j, hj, hqy, col, hcol, hbit, hqx⟩
    have h1 : qy.val = (y0 + j) % 32 := congrArg Fin.val hqy
    have h2 : qx.val = (x0 + col) % 64 := congrArg Fin.val hqx
    have h3 : (qy.val + 256 - y0) % 32 = j := by omega
    have h4 : (qx.val + 256 - x0) % 64 = col := by omega
    rw [h3, h4]
    exact ⟨⟨hcol, hj⟩, hbit⟩
  · rintro ⟨⟨hcol, hj⟩, hbit⟩
    refine ⟨_, hj, Fin.ext ?_, _, hcol, hbit, Fin.ext ?_⟩
    · simp only [wrapRow]; omega
    · simp only [wrapCol]; omega

end Sys2Proof.Machine
end

