-- ==== Sys2Proof/Laws/PerInstr.lean ====
section
/-! SUPPORT. Statements about every instruction as syntax, one lemma per constructor. -/

namespace Sys2Proof.Laws.EncodingRow

/-- The word the encoder gives an instruction matches the mask and value of its row in R107. -/
def Statement (i : Instr) : Prop := encode i &&& i.row.mask = i.row.value

/-- A format `NNN` word under the mask of its major opcode. -/
theorem of_formatNNN (a : BitVec 4) (b : Addr12) (v : Word) (h4 : fieldN4 v = a)
    (hx : fieldX v = 0) (hn : fieldNN v = 0) : formatNNN a b &&& 0xF000 = v := by
  apply word_ext
  · rw [fieldN4_and, fieldN4_formatNNN, h4]
    exact BitVec.and_allOnes
  · rw [fieldX_and, hx]
    exact BitVec.and_zero
  · rw [fieldNN_and, hn]
    exact BitVec.and_zero

/-- A format `XNN` word under the mask of its major opcode and, with `m`, of its low byte. -/
theorem of_formatXNN (a : BitVec 4) (x : Reg) (b : Byte) (m v : Word) (hm4 : fieldN4 m = 0xF)
    (hmx : fieldX m = 0) (h4 : fieldN4 v = a) (hx : fieldX v = 0) (hn : fieldNN v = b &&& fieldNN m) :
    formatXNN a x b &&& m = v := by
  apply word_ext
  · rw [fieldN4_and, fieldN4_formatXNN, hm4, h4]
    exact BitVec.and_allOnes
  · rw [fieldX_and, hmx, hx]
    exact BitVec.and_zero
  · rw [fieldNN_and, fieldNN_formatXNN, hn]

/-- A format `XNN` word with any low byte under the mask of its major opcode. -/
theorem of_formatXNN_byte (a : BitVec 4) (x : Reg) (b : Byte) (v : Word) (h4 : fieldN4 v = a)
    (hx : fieldX v = 0) (hn : fieldNN v = 0) : formatXNN a x b &&& 0xF000 = v :=
  of_formatXNN a x b _ v (by decide) (by decide) h4 hx
    (hn.trans (by rw [show fieldNN 0xF000 = 0 by decide]; exact BitVec.and_zero.symm))

/-- A format `XYN` word under the mask of its major opcode and low nibble. -/
theorem of_formatXYN (a : BitVec 4) (x y : Reg) (n : Nibble) (v : Word) (h4 : fieldN4 v = a)
    (hx : fieldX v = 0) (hn : fieldNN v = 0#4 ++ n) : formatXYN a x y n &&& 0xF00F = v :=
  of_formatXNN a x (y ++ n) _ v (by decide) (by decide) h4 hx (hn.trans (append_and_low y n).symm)

theorem nop : Statement (.nop) :=
  rfl

theorem cls : Statement (.cls) :=
  rfl

theorem ret : Statement (.ret) :=
  rfl

theorem jp (nnn : Addr12) : Statement (.jp nnn) :=
  of_formatNNN 0x1 nnn 0x1000 (by decide) (by decide) (by decide)

theorem call (nnn : Addr12) : Statement (.call nnn) :=
  of_formatNNN 0x2 nnn 0x2000 (by decide) (by decide) (by decide)

theorem seImm (x : Reg) (nn : Byte) : Statement (.seImm x nn) :=
  of_formatXNN_byte 0x3 x nn 0x3000 (by decide) (by decide) (by decide)

theorem sneImm (x : Reg) (nn : Byte) : Statement (.sneImm x nn) :=
  of_formatXNN_byte 0x4 x nn 0x4000 (by decide) (by decide) (by decide)

theorem seReg (x y : Reg) : Statement (.seReg x y) :=
  of_formatXYN 0x5 x y 0x0 0x5000 (by decide) (by decide) (by decide)

theorem ldImm (x : Reg) (nn : Byte) : Statement (.ldImm x nn) :=
  of_formatXNN_byte 0x6 x nn 0x6000 (by decide) (by decide) (by decide)

theorem addImm (x : Reg) (nn : Byte) : Statement (.addImm x nn) :=
  of_formatXNN_byte 0x7 x nn 0x7000 (by decide) (by decide) (by decide)

theorem ldReg (x y : Reg) : Statement (.ldReg x y) :=
  of_formatXYN 0x8 x y 0x0 0x8000 (by decide) (by decide) (by decide)

theorem orReg (x y : Reg) : Statement (.orReg x y) :=
  of_formatXYN 0x8 x y 0x1 0x8001 (by decide) (by decide) (by decide)

theorem andReg (x y : Reg) : Statement (.andReg x y) :=
  of_formatXYN 0x8 x y 0x2 0x8002 (by decide) (by decide) (by decide)

theorem xorReg (x y : Reg) : Statement (.xorReg x y) :=
  of_formatXYN 0x8 x y 0x3 0x8003 (by decide) (by decide) (by decide)

theorem addReg (x y : Reg) : Statement (.addReg x y) :=
  of_formatXYN 0x8 x y 0x4 0x8004 (by decide) (by decide) (by decide)

theorem subReg (x y : Reg) : Statement (.subReg x y) :=
  of_formatXYN 0x8 x y 0x5 0x8005 (by decide) (by decide) (by decide)

theorem shrReg (x y : Reg) : Statement (.shrReg x y) :=
  of_formatXYN 0x8 x y 0x6 0x8006 (by decide) (by decide) (by decide)

theorem subnReg (x y : Reg) : Statement (.subnReg x y) :=
  of_formatXYN 0x8 x y 0x7 0x8007 (by decide) (by decide) (by decide)

theorem shlReg (x y : Reg) : Statement (.shlReg x y) :=
  of_formatXYN 0x8 x y 0xE 0x800E (by decide) (by decide) (by decide)

theorem sneReg (x y : Reg) : Statement (.sneReg x y) :=
  of_formatXYN 0x9 x y 0x0 0x9000 (by decide) (by decide) (by decide)

theorem ldI (nnn : Addr12) : Statement (.ldI nnn) :=
  of_formatNNN 0xA nnn 0xA000 (by decide) (by decide) (by decide)

theorem ldiV0 (nnn : Addr12) : Statement (.ldiV0 nnn) :=
  of_formatNNN 0xB nnn 0xB000 (by decide) (by decide) (by decide)

theorem rnd (x : Reg) (nn : Byte) : Statement (.rnd x nn) :=
  of_formatXNN_byte 0xC x nn 0xC000 (by decide) (by decide) (by decide)

theorem drw (x y : Reg) (n : Nibble) : Statement (.drw x y n) :=
  of_formatXNN_byte 0xD x (y ++ n) 0xD000 (by decide) (by decide) (by decide)

theorem skp (x : Reg) : Statement (.skp x) :=
  of_formatXNN 0xE x 0x9E 0xF0FF 0xE09E (by decide) (by decide) (by decide) (by decide) (by decide)

theorem sknp (x : Reg) : Statement (.sknp x) :=
  of_formatXNN 0xE x 0xA1 0xF0FF 0xE0A1 (by decide) (by decide) (by decide) (by decide) (by decide)

theorem ldVxDt (x : Reg) : Statement (.ldVxDt x) :=
  of_formatXNN 0xF x 0x07 0xF0FF 0xF007 (by decide) (by decide) (by decide) (by decide) (by decide)

theorem ldVxK (x : Reg) : Statement (.ldVxK x) :=
  of_formatXNN 0xF x 0x0A 0xF0FF 0xF00A (by decide) (by decide) (by decide) (by decide) (by decide)

theorem ldDtVx (x : Reg) : Statement (.ldDtVx x) :=
  of_formatXNN 0xF x 0x15 0xF0FF 0xF015 (by decide) (by decide) (by decide) (by decide) (by decide)

theorem ldStVx (x : Reg) : Statement (.ldStVx x) :=
  of_formatXNN 0xF x 0x18 0xF0FF 0xF018 (by decide) (by decide) (by decide) (by decide) (by decide)

theorem addI (x : Reg) : Statement (.addI x) :=
  of_formatXNN 0xF x 0x1E 0xF0FF 0xF01E (by decide) (by decide) (by decide) (by decide) (by decide)

theorem ldF (x : Reg) : Statement (.ldF x) :=
  of_formatXNN 0xF x 0x29 0xF0FF 0xF029 (by decide) (by decide) (by decide) (by decide) (by decide)

theorem ldB (x : Reg) : Statement (.ldB x) :=
  of_formatXNN 0xF x 0x33 0xF0FF 0xF033 (by decide) (by decide) (by decide) (by decide) (by decide)

theorem storeRegs (x : Reg) : Statement (.storeRegs x) :=
  of_formatXNN 0xF x 0x55 0xF0FF 0xF055 (by decide) (by decide) (by decide) (by decide) (by decide)

theorem loadRegs (x : Reg) : Statement (.loadRegs x) :=
  of_formatXNN 0xF x 0x65 0xF0FF 0xF065 (by decide) (by decide) (by decide) (by decide) (by decide)

end Sys2Proof.Laws.EncodingRow
end

