-- ==== Sys2Proof/Laws/Run.lean ====
section
/-! SUPPORT. Runs unfolded one call at a time. -/

namespace Sys2Proof.Machine

@[simp] theorem State.runUntil_zero (endOfRun : State → Bool) (s : State) :
    s.runUntil endOfRun 0 = .next s := rfl

/-- Past its end a run goes no further. -/
theorem State.runUntil_end {endOfRun : State → Bool} {s : State} (k : Nat) (h : endOfRun s = true) :
    s.runUntil endOfRun (k + 1) = .next s := if_pos h

/-- Before its end a run is a step and the rest of the run. -/
theorem State.runUntil_step {endOfRun : State → Bool} {s t : State} (k : Nat)
    (h : endOfRun s = false) (hs : step s = .next t) :
    s.runUntil endOfRun (k + 1) = t.runUntil endOfRun k := by
  rw [State.runUntil, if_neg (by simp [h]), hs]

end Sys2Proof.Machine
end

