-- ==== Sys2Proof/Tests/Slice0.lean ====
section
/-! SUPPORT. Tests. Expected results are the worked examples W and vectors V of spec/95_test_vectors.md, or words written out from spec/30_encoding.md R104 to R109. The witnesses at the end meet the hypotheses of the statements, one for each clause at a boundary value. -/

namespace Sys2Proof.Tests

open Sys2Proof.Machine

/-! ## Well-formed words, and an ill-formed word for each check -/

theorem test_wf_accepts : ([0x0000, 0x00E0, 0x00EE, 0x1FFF, 0x5AB0, 0x800E, 0x9AB0, 0xE09E, 0xF065] : List Word).all
    WellFormed.word = true := by decide

/-- V6: `0x0123` is no instruction. -/
theorem test_wf_group0_refuses : WellFormed.group0 0x0123 = false ∧ WellFormed.word 0x0123 = false := by decide

/-- V8, V10: `0x5121` and `0x9011`. -/
theorem test_wf_lastNibbleZero_refuses : WellFormed.lastNibbleZero 0x5121 = false ∧
    WellFormed.word 0x5121 = false ∧ WellFormed.word 0x9011 = false := by decide

/-- V9: `0x8128` and `0x800F`. -/
theorem test_wf_group8_refuses : WellFormed.group8 0x8128 = false ∧ WellFormed.word 0x8128 = false ∧
    WellFormed.word 0x800F = false := by decide

/-- V11: `0xE09F`. -/
theorem test_wf_groupE_refuses : WellFormed.groupE 0xE09F = false ∧ WellFormed.word 0xE09F = false := by decide

/-- V12: `0xF019`. -/
theorem test_wf_groupF_refuses : WellFormed.groupF 0xF019 = false ∧ WellFormed.word 0xF019 = false := by decide

/-! ## Decoding, words written out bit by bit from R104 to R108 -/

theorem test_decode_control :
    decodeTableWord 16 0b0000000000000000 = some .nop ∧
    decodeTableWord 16 0b0000000011101110 = some .ret ∧
    decodeTableWord 16 0b0001001000110100 = some (.jp 0x234) ∧
    decodeTableWord 16 0b0010010001010110 = some (.call 0x456) ∧
    decodeTableWord 16 0b0011010000000111 = some (.seImm 4 0x07) ∧
    decodeTableWord 16 0b0100010000001000 = some (.sneImm 4 0x08) ∧
    decodeTableWord 16 0b0101000100100000 = some (.seReg 1 2) ∧
    decodeTableWord 16 0b1001000100100000 = some (.sneReg 1 2) := by decide

theorem test_decode_alu :
    decodeTableWord 16 0b0110101001011100 = some (.ldImm 0xA 0x5C) ∧
    decodeTableWord 16 0b0111001111111111 = some (.addImm 3 0xFF) ∧
    decodeTableWord 16 0b1000000100100000 = some (.ldReg 1 2) ∧
    decodeTableWord 16 0b1000000100100001 = some (.orReg 1 2) ∧
    decodeTableWord 16 0b1000000100100010 = some (.andReg 1 2) ∧
    decodeTableWord 16 0b1000000100100011 = some (.xorReg 1 2) ∧
    decodeTableWord 16 0b1000000100100100 = some (.addReg 1 2) ∧
    decodeTableWord 16 0b1000000100100101 = some (.subReg 1 2) ∧
    decodeTableWord 16 0b1000000100100110 = some (.shrReg 1 2) ∧
    decodeTableWord 16 0b1000000100100111 = some (.subnReg 1 2) ∧
    decodeTableWord 16 0b1000000100101110 = some (.shlReg 1 2) := by decide

theorem test_decode_index :
    decodeTableWord 16 0b1010001011110000 = some (.ldI 0x2F0) ∧
    decodeTableWord 16 0b1011001100000000 = some (.ldiV0 0x300) ∧
    decodeTableWord 16 0b1111010100011110 = some (.addI 5) ∧
    decodeTableWord 16 0b1111011100101001 = some (.ldF 7) ∧
    decodeTableWord 16 0b1111001000110011 = some (.ldB 2) ∧
    decodeTableWord 16 0b1111001001010101 = some (.storeRegs 2) ∧
    decodeTableWord 16 0b1111001001100101 = some (.loadRegs 2) := by decide

theorem test_decode_display :
    decodeTableWord 16 0b0000000011100000 = some .cls ∧
    decodeTableWord 16 0b1101000000010101 = some (.drw 0 1 5) := by decide

theorem test_decode_input :
    decodeTableWord 16 0b1100001100001111 = some (.rnd 3 0x0F) ∧
    decodeTableWord 16 0b1110001010011110 = some (.skp 2) ∧
    decodeTableWord 16 0b1110001010100001 = some (.sknp 2) ∧
    decodeTableWord 16 0b1111010100000111 = some (.ldVxDt 5) ∧
    decodeTableWord 16 0b1111000100001010 = some (.ldVxK 1) ∧
    decodeTableWord 16 0b1111010000010101 = some (.ldDtVx 4) ∧
    decodeTableWord 16 0b1111010000011000 = some (.ldStVx 4) := by decide

/-- V5, V6, V7: illegal words of group `0`, returned by themselves. -/
theorem test_decode_illegal : decode 0x0001 = .illegal 0x0001 ∧ decode 0x0123 = .illegal 0x0123 ∧
    decode 0x00E1 = .illegal 0x00E1 := by decide

/-! ## Helpers -/

/-- The next state of an answer. -/
def ran : Answer → Option State
  | .next t => some t
  | .fault _ => none
  | .refused _ => none

/-- One step on the word `w` placed at the next fetch. -/
def after (w : Nat) (s : State) : Option State := ran (step (s.withFetchWord 16 w))

/-- One step on the driver call `d`. -/
def call (d : DriverCall) (s : State) : Option State := ran (step (s.setCalls [d]))

/-- The reset state with registers set. -/
def regs (l : List (Reg × Byte)) : State := l.foldl (fun s p => s.writeV p.1 p.2) State.reset

/-- A state with bytes put into memory from address `a` up. -/
def poke (a : Nat) (bs : List Byte) (s : State) : State :=
  match s.writeBytes a bs with
  | .ok t => t
  | .error _ => s

/-- A state with the listed keys pressed and no other. -/
def press (l : List Nat) (s : State) : State := s.setKeys (Vector.ofFn fun k : Fin 16 => l.contains k.val)

/-- A stack of `n` entries. -/
def deep (n : Nat) : State := State.reset.setStack (List.replicate n 0x202)

/-- The lit pixels among columns `cols` and rows `rows`. -/
def lit (cols rows : List Nat) (t : State) : List (Nat × Nat) :=
  (rows.flatMap fun r => cols.map fun c => (c, r)).filter fun p => t.fb.pixel (wrapCol p.1) (wrapRow p.2)

/-! ## One step each, from the vectors -/

/-- V1: the last legal fetch. -/
theorem test_fetch_last : ((call .cycle (poke 0xFFE [0x60, 0x2A] (State.reset.setPc 0xFFE))).map
    fun t => (t.readV 0, t.pc)) = some (0x2A, 0x1000) := by decide

/-- V3: an odd `pc`. -/
theorem test_fetch_odd : ((call .cycle (poke 0x201 [0x61, 0x07] (State.reset.setPc 0x201))).map
    fun t => (t.readV 1, t.pc)) = some (0x07, 0x203) := by decide

/-- V2, W1: a fetch past memory changes nothing. -/
theorem test_fetch_past : ((call .cycle (State.reset.setPc 0x1000)).map
    fun t => (t.pc, t.errorSeen)) = some (0x1000, true) := by decide

/-- V5: an illegal word. -/
theorem test_illegal : ((after 0x0001 State.reset).map fun t => t.result) =
    some (.error (.opcode 0x0001)) := by decide

/-- V14. -/
theorem test_nop : ((after 0x0000 State.reset).map fun t => (t.pc, t.result)) = some (0x202, .ok) := by decide

/-- V15. -/
theorem test_jp : ((after 0x1FFE State.reset).map fun t => t.pc) = some 0xFFE := by decide

/-- V17, V18. -/
theorem test_call : ((after 0x2456 State.reset).map fun t => (t.stack, t.pc)) = some ([0x202], 0x456) ∧
    ((after 0x2456 (deep 15)).map fun t => t.stack.length) = some 16 := by decide

/-- V19. -/
theorem test_call_full : ((after 0x2456 (deep 16)).map fun t => (t.stack.length, t.result)) =
    some (16, .error .stackOverflow) := by decide

/-- V20: the newest entry is popped. -/
theorem test_ret : ((after 0x00EE (State.reset.setStack [0x45A, 0x202])).map fun t => (t.stack, t.pc)) =
    some ([0x202], 0x45A) := by decide

/-- W11. -/
theorem test_ret_empty : ((after 0x00EE State.reset).map fun t => (t.stack, t.result)) =
    some ([], .error .stackEmpty) := by decide

/-- V21, V22. -/
theorem test_seImm : ((after 0x3407 (regs [(4, 0x07)])).map fun t => t.pc) = some 0x204 ∧
    ((after 0x3408 (regs [(4, 0x07)])).map fun t => t.pc) = some 0x202 := by decide

/-- V23, V24. -/
theorem test_sneImm : ((after 0x4408 (regs [(4, 0x07)])).map fun t => t.pc) = some 0x204 ∧
    ((after 0x4407 (regs [(4, 0x07)])).map fun t => t.pc) = some 0x202 := by decide

/-- V25. -/
theorem test_seReg : ((after 0x5120 (regs [(1, 0x33), (2, 0x33)])).map fun t => t.pc) = some 0x204 := by decide

/-- V26, V27. -/
theorem test_sneReg : ((after 0x9120 (regs [(1, 0x33), (2, 0x34)])).map fun t => t.pc) = some 0x204 ∧
    ((after 0x9120 (regs [(1, 0x33), (2, 0x33)])).map fun t => t.pc) = some 0x202 := by decide

/-- V30. -/
theorem test_ldImm : ((after 0x6A5C State.reset).map fun t => t.readV 0xA) = some 0x5C := by decide

/-- V32, V31. -/
theorem test_addImm : ((after 0x70FF (regs [(0, 0x01)])).map fun t => (t.readV 0, t.readV 0xF)) = some (0, 0) ∧
    ((after 0x7FFF (regs [(0xF, 0x01)])).map fun t => t.readV 0xF) = some 0 := by decide

/-- V33. -/
theorem test_ldReg : ((after 0x8010 (regs [(0, 0x01), (1, 0x99)])).map fun t => t.readV 0) = some 0x99 := by decide

/-- V34. -/
theorem test_orReg : ((after 0x8011 (regs [(0, 0xF0), (1, 0x0F), (0xF, 0x55)])).map
    fun t => (t.readV 0, t.readV 0xF)) = some (0xFF, 0x55) := by decide

/-- V35. -/
theorem test_andReg : ((after 0x8012 (regs [(0, 0xF0), (1, 0x3C)])).map fun t => t.readV 0) = some 0x30 := by decide

/-- V36. -/
theorem test_xorReg : ((after 0x8013 (regs [(0, 0xFF), (1, 0x0F)])).map fun t => t.readV 0) = some 0xF0 := by decide

/-- W5, V37. -/
theorem test_addReg : ((after 0x8014 (regs [(0, 0xFF), (1, 0x01)])).map fun t => (t.readV 0, t.readV 0xF)) =
      some (0x00, 0x01) ∧
    ((after 0x8014 (regs [(0, 0x7F), (1, 0x80)])).map fun t => (t.readV 0, t.readV 0xF)) =
      some (0xFF, 0x00) := by decide

/-- V39: with `x = 0xF` the flag is what `VF` holds. -/
theorem test_addReg_vf : ((after 0x8F14 (regs [(0xF, 0xFF), (1, 0x01)])).map fun t => t.readV 0xF) =
    some 0x01 := by decide

/-- W6, W7. -/
theorem test_subReg : ((after 0x8015 (regs [(0, 0x05), (1, 0x0A)])).map fun t => (t.readV 0, t.readV 0xF)) =
      some (0xFB, 0x00) ∧
    ((after 0x8015 (regs [(0, 0x0A), (1, 0x05)])).map fun t => (t.readV 0, t.readV 0xF)) =
      some (0x05, 0x01) := by decide

/-- V41: no borrow on equal operands. -/
theorem test_subReg_equal : ((after 0x8015 (regs [(0, 0x07), (1, 0x07)])).map
    fun t => (t.readV 0, t.readV 0xF)) = some (0x00, 0x01) := by decide

/-- V45: the source is `V[y]`. -/
theorem test_shrReg : ((after 0x8016 (regs [(0, 0xAA), (1, 0x03)])).map fun t => (t.readV 0, t.readV 0xF)) =
    some (0x01, 0x01) := by decide

/-- V48. -/
theorem test_shrReg_vf : ((after 0x8F16 (regs [(1, 0x02)])).map fun t => t.readV 0xF) = some 0x00 := by decide

/-- V50, V51. -/
theorem test_subnReg : ((after 0x8017 (regs [(0, 0x0A), (1, 0x05)])).map fun t => (t.readV 0, t.readV 0xF)) =
      some (0xFB, 0x00) ∧
    ((after 0x8017 (regs [(0, 0x05), (1, 0x0A)])).map fun t => (t.readV 0, t.readV 0xF)) =
      some (0x05, 0x01) := by decide

/-- V54, V55. -/
theorem test_shlReg : ((after 0x801E (regs [(1, 0x81)])).map fun t => (t.readV 0, t.readV 0xF)) =
      some (0x02, 0x01) ∧
    ((after 0x801E (regs [(1, 0x7F)])).map fun t => (t.readV 0, t.readV 0xF)) = some (0xFE, 0x00) := by decide

/-- V58. -/
theorem test_ldI : ((after 0xAFFF State.reset).map fun t => t.i) = some 0x0FFF := by decide

/-- V59, V60. -/
theorem test_ldiV0 : ((after 0xB300 (regs [(0, 0x10)])).map fun t => (t.i, t.pc)) = some (0x0310, 0x202) ∧
    ((after 0xBFFF (regs [(0, 0xFF)])).map fun t => t.i) = some 0x10FE := by decide

/-- V62. -/
theorem test_addI : ((after 0xF51E ((regs [(5, 0x01)]).setI 0xFFFF)).map fun t => (t.i, t.readV 0xF)) =
    some (0x0000, 0x00) := by decide

/-- V63, V64. -/
theorem test_ldF : ((after 0xF729 (regs [(7, 0x0A)])).map fun t => t.i) = some 0x0032 ∧
    ((after 0xF729 (regs [(7, 0x0F)])).map fun t => t.i) = some 0x004B := by decide

/-- W12. -/
theorem test_ldB : ((after 0xF233 ((regs [(2, 0xCD)]).setI 0x300)).map
    fun t => (t.byteAt 0x300, t.byteAt 0x301, t.byteAt 0x302, t.i)) = some (2, 0, 5, 0x300) := by decide

/-- V72: no byte written. -/
theorem test_ldB_past : ((after 0xF233 ((regs [(2, 0xFF)]).setI 0xFFE)).map
    fun t => (t.byteAt 0xFFE, t.errorSeen)) = some (0, true) := by decide

/-- V73. -/
theorem test_storeRegs : ((after 0xF255 ((regs [(0, 0x11), (1, 0x22), (2, 0x33)]).setI 0x400)).map
    fun t => (t.byteAt 0x400, t.byteAt 0x401, t.byteAt 0x402, t.byteAt 0x403, t.i)) =
      some (0x11, 0x22, 0x33, 0, 0x403) := by decide

/-- V77: the check has no wrap. -/
theorem test_storeRegs_past : ((after 0xF055 (State.reset.setI 0xFFFF)).map
    fun t => (t.i, t.errorSeen)) = some (0xFFFF, true) := by decide

/-- V78. -/
theorem test_loadRegs : ((after 0xF265 (poke 0x400 [0x11, 0x22, 0x33] ((regs [(3, 0x77)]).setI 0x400))).map
    fun t => (t.readV 0, t.readV 1, t.readV 2, t.readV 3, t.i)) =
      some (0x11, 0x22, 0x33, 0x77, 0x403) := by decide

/-- V80: nothing loaded. -/
theorem test_loadRegs_past : ((after 0xF265 ((regs [(0, 0x11)]).setI 0xFFE)).map
    fun t => (t.readV 0, t.i, t.errorSeen)) = some (0x11, 0xFFE, true) := by decide

/-- V82. -/
theorem test_cls : ((after 0x00E0 State.reset).map fun t => t.dirty) = some true := by decide

/-- W9: both edges wrap. -/
theorem test_drw_wraps : ((after 0xD012 (poke 0x300 [0xC0, 0xC0] ((regs [(0, 0x3F), (1, 0x1F)]).setI 0x300))).map
    fun t => (lit [0, 1, 62, 63] [0, 1, 30, 31] t, t.readV 0xF, t.dirty)) =
      some ([(0, 0), (63, 0), (0, 31), (63, 31)], 0, true) := by decide +kernel

/-- V87 and V91: a clear sprite bit is no hit, a set one on a lit pixel is. -/
theorem test_drw_collision :
    ((after 0xD011 (poke 0x300 [0x40] ((State.reset.setFb (Framebuffer.blank.toggle 0 0)).setI 0x300))).map
      fun t => (lit [0, 1, 2] [0] t, t.readV 0xF)) = some ([(0, 0), (1, 0)], 0) ∧
    ((after 0xD011 (poke 0x300 [0x80] ((State.reset.setFb (Framebuffer.blank.toggle 0 0)).setI 0x300))).map
      fun t => (lit [0, 1, 2] [0] t, t.readV 0xF)) = some ([], 1) := by decide +kernel

/-- V93, whatever the drawn byte: the mask is applied, and one byte is drawn. -/
theorem test_rnd : ((after 0xC30F State.reset).map fun t => (t.readV 3, t.draws)) =
    some (Config.randomByte 0 &&& 0x0F, 1) := rfl

/-- V96, V97. -/
theorem test_skp : ((after 0xE29E (press [4] (regs [(2, 0x04)]))).map fun t => t.pc) = some 0x204 ∧
    ((after 0xE29E (regs [(2, 0x04)])).map fun t => t.pc) = some 0x202 := by decide

/-- V100. -/
theorem test_skp_no_key : ((after 0xE29E (regs [(2, 0x10)])).map fun t => t.result) =
    some (.error (.undefinedOperand 0xE29E)) := by decide

/-- V98, V99. -/
theorem test_sknp : ((after 0xE2A1 (regs [(2, 0x04)])).map fun t => t.pc) = some 0x204 ∧
    ((after 0xE2A1 (press [4] (regs [(2, 0x04)]))).map fun t => t.pc) = some 0x202 := by decide

/-- V100. -/
theorem test_sknp_no_key : ((after 0xE2A1 (regs [(2, 0x10)])).map fun t => t.result) =
    some (.error (.undefinedOperand 0xE2A1)) := by decide

/-- V101. -/
theorem test_ldVxDt : ((after 0xF507 (State.reset.setDt 0x3C)).map fun t => t.readV 5) = some 0x3C := by decide

/-- W14: the lowest of keys 3 and 9. -/
theorem test_ldVxK : ((after 0xF10A (press [3, 9] State.reset)).map fun t => (t.readV 1, t.pc)) =
    some (0x03, 0x202) := by decide

/-- V102. -/
theorem test_ldVxK_waits : ((after 0xF10A (regs [(1, 0x55)])).map fun t => (t.readV 1, t.pc)) =
    some (0x55, 0x200) := by decide

/-- V104. -/
theorem test_ldDtVx : ((after 0xF415 (regs [(4, 0x3C)])).map fun t => t.dt) = some 0x3C := by decide

/-- V105. -/
theorem test_ldStVx : ((after 0xF418 (regs [(4, 0x02)])).map fun t => t.st) = some 0x02 := by decide

/-! ## The driver's calls -/

/-- V106, V109. -/
theorem test_tick : ((call .tickTimers (State.reset.setDt 0x02)).map fun t => (t.dt, t.st)) = some (1, 0) ∧
    ((call .tickTimers State.reset).map fun t => (t.dt, t.st)) = some (0, 0) := by decide

/-- V107, V108. -/
theorem test_sound_signal : soundSignal (State.reset.setSt 2) (State.reset.setSt 2).tickTimers = true ∧
    soundSignal (State.reset.setSt 1) (State.reset.setSt 1).tickTimers = false := by decide

/-- V111, V112. -/
theorem test_set_key : ((call (.setKey 15 true) State.reset).map fun t => (t.keyDown 15, t.keyDown 14)) =
      some (true, false) ∧
    ((call (.setKey 16 true) State.reset).map fun t => t.result) = some (.error .keyIndex) := by decide

/-- V114, V115. -/
theorem test_dirty : ((call .queryDirty (State.reset.setDirty true)).map fun t => t.result) =
      some (.dirtyFlag true) ∧
    ((call .clearDirty (State.reset.setDirty true)).map fun t => t.dirty) = some false := by decide

/-- V116. -/
theorem test_reset_call : ((call .reset ((regs [(3, 0x77)]).setPc 0x345)).map fun t => (t.pc, t.readV 3)) =
    some (0x200, 0) := by decide

/-- V118. -/
theorem test_load : ((call (.load [0xA2, 0x2A]) State.reset).map
    fun t => (t.byteAt 0x200, t.byteAt 0x201, t.pc)) = some (0xA2, 0x2A, 0x200) := by decide

/-- V83 reads the font glyph "0", default of D2. -/
theorem test_font : ((List.range 5).map State.reset.byteAt) = [0xF0, 0x90, 0x90, 0x90, 0xF0] := by decide

/-- D28: `1200` at `0x200` is the idle loop and ends a run; `1202` there is not (V16). -/
theorem test_end_of_run : (State.reset.withFetchWord 16 0x1200).atSelfJump = true ∧
    (State.reset.withFetchWord 16 0x1202).atSelfJump = false ∧
    ((ran ((State.reset.withFetchWord 16 0x1202).runUntil State.atSelfJump 1)).map fun t => t.pc) =
      some 0x202 := by decide

/-! ## Witnesses: the hypotheses of each statement are met, clause by clause -/

/-- An answer that has a next state is that next state. -/
theorem next_of_ran {a : Answer} (h : (ran a).isSome = true) : ∃ t, a = .next t := by
  cases a with
  | next t => exact ⟨t, rfl⟩
  | fault f => cases h
  | refused r => cases h

/-- Two answers in a row. -/
theorem next_of_ran_twice {a : Answer} {f : State → Answer}
    (h : ((ran a).bind fun t => ran (f t)).isSome = true) : ∃ t u, a = .next t ∧ f t = .next u := by
  cases a with
  | next t => exact ⟨t, (next_of_ran h).imp fun _ hu => ⟨rfl, hu⟩⟩
  | fault f => cases h
  | refused r => cases h

/-- For EncodeOfDecodeIsTheWord and DecodedWordMatchesItsRowOnly. -/
theorem witness_decoded_word : decode 0x8126 = .instr (.shrReg 1 2) := by decide

/-- For IllegalExactlyWhenNoRowMatches, its last clause. -/
theorem witness_illegal_word : decode 0x5121 = .illegal 0x5121 := by decide

/-- The last word of memory, at the last address that can be fetched. -/
def atEnd (w : Nat) (calls : List DriverCall) : State :=
  ((State.reset.setPc 0xFFE).withFetchWord 16 w).setCalls calls

/-- For StepRunsTheDecodedInstruction, with no call listed and with `cycle()` listed. -/
theorem witness_StepRunsTheDecodedInstruction :
    (atEnd 0x8126 []).pc.toNat + 1 < 4096 ∧ decode (atEnd 0x8126 []).wordAtPc = .instr (.shrReg 1 2) ∧
    (atEnd 0x8126 []).calls = [] ∧
    (atEnd 0x8126 [.cycle]).pc.toNat + 1 < 4096 ∧
    decode (atEnd 0x8126 [.cycle]).wordAtPc = .instr (.shrReg 1 2) ∧
    (atEnd 0x8126 [.cycle]).calls = .cycle :: [] :=
  ⟨by decide, by decide, rfl, by decide, by decide, rfl⟩

/-- For FetchPastMemoryIsAnError, at both ends of its range. -/
theorem witness_FetchPastMemoryIsAnError :
    (State.reset.setPc 0xFFF).nextCall = (.cycle, State.reset.setPc 0xFFF) ∧
    0xFFF ≤ (State.reset.setPc 0xFFF).pc.toNat ∧
    (State.reset.setPc 0xFFFF).nextCall = (.cycle, State.reset.setPc 0xFFFF) ∧
    0xFFF ≤ (State.reset.setPc 0xFFFF).pc.toNat := ⟨rfl, by decide, rfl, by decide⟩

/-- For IllegalWordIsAnError. -/
theorem witness_IllegalWordIsAnError :
    (atEnd 0x5121 []).nextCall = (.cycle, atEnd 0x5121 []) ∧ (atEnd 0x5121 []).pc.toNat + 1 < 4096 ∧
    decode (atEnd 0x5121 []).wordAtPc = .illegal 0x5121 := ⟨rfl, by decide, by decide⟩

/-- For ErrorChangesNothingElse. -/
theorem witness_ErrorChangesNothingElse :
    State.reset.result = .ok ∧ exec .ret State.reset = .next (State.reset.afterExecError .stackEmpty) ∧
    (State.reset.afterExecError .stackEmpty).result = .error .stackEmpty := ⟨rfl, rfl, rfl⟩

/-- For InstructionRaisesOnlyItsOwnError, with an error and without one. -/
theorem witness_InstructionRaisesOnlyItsOwnError :
    State.reset.result = .ok ∧ exec .ret State.reset = .next (State.reset.afterExecError .stackEmpty) ∧
    exec .nop State.reset = .next State.reset := ⟨rfl, rfl, rfl⟩

/-- For ErrorMarkIsSticky: a marked state that steps, and a step that returns an error. -/
theorem witness_ErrorMarkIsSticky :
    ((State.reset.setPc 0xFFF).fail .stackEmpty).errorSeen = true ∧
    (∃ t, step ((State.reset.setPc 0xFFF).fail .stackEmpty) = .next t) ∧
    ∃ t e, step (State.reset.setCalls [.setKey 16 true]) = .next t ∧ t.result = .error e :=
  ⟨rfl, next_of_ran (by decide), _, .keyIndex, rfl, rfl⟩

/-- For StepKeepsStructure, with a full stack and a memory that lists bytes. -/
theorem witness_StepKeepsStructure :
    StructureInv (poke 0xFFE [1, 2] (deep 16)) ∧ ∃ t, step (poke 0xFFE [1, 2] (deep 16)) = .next t :=
  ⟨by unfold StructureInv; decide, next_of_ran (by decide)⟩

/-- A state at the highest `pc` and return address of R37. -/
def highest : State := (State.reset.setPc 0x1002).setStack [0x1000]

/-- For StepKeepsPcInRange. -/
theorem witness_StepKeepsPcInRange : PcInv highest ∧ ∃ t, step highest = .next t := by
  have hp : highest.pc.toNat = 0x1002 := rfl
  refine ⟨⟨by rw [hp], ?_⟩, highest.fetchError, ?_⟩
  · simp [highest]
  · rw [step_of_none rfl, State.cycle_outside _ (by rw [hp]; decide)]

/-- For the driver's calls: a state with the call listed. -/
theorem witness_driver_calls :
    (State.reset.setCalls [.reset]).calls = .reset :: [] ∧
    (State.reset.setCalls [.tickTimers]).calls = .tickTimers :: [] ∧
    (State.reset.setCalls [.framebuffer]).calls = .framebuffer :: [] ∧
    (State.reset.setCalls [.queryDirty]).calls = .queryDirty :: [] ∧
    (State.reset.setCalls [.clearDirty]).calls = .clearDirty :: [] := by decide

/-- For ResetCallLeavesTheResetState, its two clauses over addresses, where they meet. -/
theorem witness_ResetCallLeavesTheResetState :
    (State.reset.setCalls [.reset]).calls = .reset :: [] ∧ 79 < 80 ∧ 80 ≤ 80 := by decide

/-- For NopOnlyMovesPc: the last word that can be fetched, and the first byte above the font. -/
theorem witness_NopOnlyMovesPc :
    (State.reset.setPc 0xFFE).nextCall = (.cycle, State.reset.setPc 0xFFE) ∧
    (State.reset.setPc 0xFFE).pc.toNat + 1 < 4096 ∧ (State.reset.setPc 0xFFE).wordAtPc = 0 ∧
    0x050 ≤ 0x050 := ⟨rfl, by decide, by decide, by decide⟩

/-- For JumpSetsPc: a jump to itself at the last address that can be fetched. -/
theorem witness_JumpSetsPc :
    (atEnd 0x1FFE []).nextCall = (.cycle, atEnd 0x1FFE []) ∧ (atEnd 0x1FFE []).pc.toNat + 1 < 4096 ∧
    decode (atEnd 0x1FFE []).wordAtPc = .instr (.jp 0xFFE) ∧
    (0xFFE : Addr12).toNat = (atEnd 0x1FFE []).pc.toNat := ⟨rfl, by decide, by decide, by decide⟩

/-- For CallPushesAndJumps: 15 entries and 16. -/
theorem witness_CallPushesAndJumps : (deep 15).stack.length < 16 ∧ 16 ≤ (deep 16).stack.length := by decide

/-- For ReturnPopsPc: an entry, and none. -/
theorem witness_ReturnPopsPc : (deep 1).stack = 0x202 :: [] ∧ (deep 0).stack = [] := by decide

/-- For ReturnUndoesCall, at 15 entries. -/
theorem witness_ReturnUndoesCall :
    (deep 15).stack.length < 16 ∧ ∃ t, exec (.call 0x456) (deep 15) = .next t ∧ t.stack = t.stack :=
  ⟨by decide, (next_of_ran (by decide)).imp fun _ h => ⟨h, rfl⟩⟩

/-- For SkipsOnRegisters, its last clause. -/
theorem witness_SkipsOnRegisters : (1 : Nibble) ≠ 0 ∧ (0xF : Nibble) ≠ 0 := by decide

/-- For MoveAndLogic and RandomByteIsMasked: the highest bit. -/
theorem witness_bit : 7 < 8 := by decide

/-- For AddWritesSumAndCarry, SubtractWritesDifferenceAndNoBorrow and ShiftsMoveVyByOneBit. -/
theorem witness_not_vf : (0xE : Reg) ≠ 0xF := by decide

/-- For FontAddress: 15 and 16. -/
theorem witness_FontAddress : ((regs [(7, 0x0F)]).readV 7).toNat < 16 ∧
    16 ≤ ((regs [(7, 0x10)]).readV 7).toNat := by decide

/-- For BcdStoresTheDigits: the last `I` inside memory and the first outside. -/
theorem witness_BcdStoresTheDigits : (State.reset.setI 0xFFD).i.toNat + 2 ≤ 0xFFF ∧
    0xFFF < (State.reset.setI 0xFFE).i.toNat + 2 := by decide

/-- For BcdDigitsGiveTheByteBack. -/
theorem witness_BcdDigitsGiveTheByteBack :
    ((regs [(2, 0xFF)]).setI 0xFFD).i.toNat + 2 ≤ 0xFFF ∧
    ∃ t, exec (.ldB 2) ((regs [(2, 0xFF)]).setI 0xFFD) = .next t := ⟨by decide, next_of_ran (by decide)⟩

/-- For StoreRegisters and LoadRegisters, all sixteen registers: the last `I` inside and the first
outside, and the last register moved. -/
theorem witness_StoreRegisters : (State.reset.setI 0xFF0).i.toNat + (0xF : Reg).toNat ≤ 0xFFF ∧
    0xFFF < (State.reset.setI 0xFF1).i.toNat + (0xF : Reg).toNat ∧
    (0xF : Reg).toNat ≤ (0xF : Reg).toNat := by decide

/-- For StoreThenLoadGivesTheRegistersBack: the state after the store, with `I` put back. -/
theorem witness_StoreThenLoadGivesTheRegistersBack :
    (State.reset.setI 0xFF0).i.toNat + (0xF : Reg).toNat ≤ 0xFFF ∧
    ∃ t u : State, exec (.storeRegs 0xF) (State.reset.setI 0xFF0) = .next t ∧ u.mem = t.mem ∧
      u.i = (State.reset.setI 0xFF0).i :=
  ⟨by decide, (next_of_ran (by decide)).imp fun t h => ⟨t.setI 0xFF0, h, rfl, rfl⟩⟩

/-- For StoredBytesAreFetched: the last word of memory. -/
theorem witness_StoredBytesAreFetched :
    (State.reset.setI 0xFFE).i.toNat + (1 : Reg).toNat ≤ 0xFFF ∧ (0 : Reg).toNat + 1 ≤ (1 : Reg).toNat ∧
    ∃ t u : State, exec (.storeRegs 1) (State.reset.setI 0xFFE) = .next t ∧ u.mem = t.mem ∧
      u.pc.toNat = (State.reset.setI 0xFFE).i.toNat + (0 : Reg).toNat :=
  ⟨by decide, by decide, (next_of_ran (by decide)).imp fun t h => ⟨t.setPc 0xFFE, h, rfl, rfl⟩⟩

/-- For ByteReadAfterWrite: the last address and the first one above. -/
theorem witness_ByteReadAfterWrite : 4095 < 4096 ∧ 4096 ≤ 4096 ∧ 4094 ≠ 4095 := by decide

/-- For DrawIsXorWithTheSpriteMask: no rows with `I` past memory, one row at the last byte. -/
theorem witness_DrawIsXorWithTheSpriteMask :
    ((0 : Nibble) = 0 ∨ (State.reset.setI 0xFFFF).i.toNat + ((0 : Nibble).toNat - 1) ≤ 0xFFF) ∧
    ((1 : Nibble) = 0 ∨ (State.reset.setI 0xFFF).i.toNat + ((1 : Nibble).toNat - 1) ≤ 0xFFF) := by decide

/-- A state with the pixel at the origin lit and a sprite byte at the last address. -/
def sprite (b : Byte) : State :=
  poke 0xFFF [b] ((State.reset.setFb (Framebuffer.blank.toggle 0 0)).setI 0xFFF)

/-- For its clauses on `VF`: a lit pixel under the mask, and no lit pixel under the mask. -/
theorem witness_DrawIsXorWithTheSpriteMask_flag :
    (∃ px py, (sprite 0x80).fb.pixel px py = true ∧ (sprite 0x80).spriteMask 0 1 1 px py = true) ∧
    ∀ px py, (sprite 0x00).fb.pixel px py = true → (sprite 0x00).spriteMask 0 1 1 px py = false :=
  ⟨⟨0, 0, by decide⟩, by decide +kernel⟩

/-- For DrawPastMemoryIsAnError: two rows at the last byte. -/
theorem witness_DrawPastMemoryIsAnError : (2 : Nibble) ≠ 0 ∧
    0xFFF < (State.reset.setI 0xFFF).i.toNat + ((2 : Nibble).toNat - 1) := by decide

/-- For DrawTwiceErases, with `VF` clear after the first draw. -/
theorem witness_DrawTwiceErases :
    (0 : Reg) ≠ 0xF ∧ (1 : Reg) ≠ 0xF ∧
    ((1 : Nibble) = 0 ∨ (sprite 0x40).i.toNat + ((1 : Nibble).toNat - 1) ≤ 0xFFF) ∧
    (∃ t u, exec (.drw 0 1 1) (sprite 0x40) = .next t ∧ exec (.drw 0 1 1) t = .next u) ∧
    (ran (exec (.drw 0 1 1) (sprite 0x40))).map (fun t => t.readV 0xF) = some 0 :=
  ⟨by decide, by decide, by decide, next_of_ran_twice (by decide +kernel), by decide +kernel⟩

/-- For KeySkips: the last key, and the first byte that names none. -/
theorem witness_KeySkips : ((regs [(2, 0x0F)]).readV 2).toNat = (15 : Fin 16).val ∧
    16 ≤ ((regs [(2, 0x10)]).readV 2).toNat := by decide

/-- For KeyWait: no key, and keys 3 and 9 with 3 the lowest. -/
theorem witness_KeyWait : (∀ k, State.reset.keyDown k = false) ∧
    (press [3, 9] State.reset).keyDown 3 = true ∧
    ∀ j : Fin 16, j < 3 → (press [3, 9] State.reset).keyDown j = false := by decide

/-- For WaitForKeyRepeats. -/
theorem witness_WaitForKeyRepeats :
    (atEnd 0xF10A []).nextCall = (.cycle, atEnd 0xF10A []) ∧ (atEnd 0xF10A []).pc.toNat + 1 < 4096 ∧
    decode (atEnd 0xF10A []).wordAtPc = .instr (.ldVxK 1) ∧ ∀ k, (atEnd 0xF10A []).keyDown k = false :=
  ⟨rfl, by decide, by decide, by decide⟩

/-- For SoundSignalOnTheTickToOne. -/
theorem witness_SoundSignalOnTheTickToOne :
    ((State.reset.setSt 2).setCalls [.tickTimers]).calls = .tickTimers :: [] ∧
    ∃ t, step ((State.reset.setSt 2).setCalls [.tickTimers]) = .next t := ⟨rfl, _, rfl⟩

/-- For SetKeyLatchesOrRejects: index 15 and index 16. -/
theorem witness_SetKeyLatchesOrRejects :
    (State.reset.setCalls [.setKey 15 true]).calls = .setKey 15 true :: [] ∧ 15 < 16 ∧
    (State.reset.setCalls [.setKey 16 true]).calls = .setKey 16 true :: [] ∧ 16 ≤ 16 := by decide

/-- For LoadCopiesTheBytes: 2560 bytes, its last byte, and 2561 bytes (W2, W3). -/
theorem witness_LoadCopiesTheBytes :
    (State.reset.setCalls [.load (List.replicate 2560 1)]).calls = .load (List.replicate 2560 1) :: [] ∧
    (List.replicate 2560 (1 : Byte)).length ≤ 2560 ∧ 2559 < (List.replicate 2560 (1 : Byte)).length ∧
    (State.reset.setCalls [.load (List.replicate 2561 1)]).calls = .load (List.replicate 2561 1) :: [] ∧
    2560 < (List.replicate 2561 (1 : Byte)).length := by
  refine ⟨rfl, ?_, ?_, rfl, ?_⟩ <;> simp only [List.length_replicate] <;> decide

/-- For OnlyListedInstructionsWrite and OnlyListedRegistersAreWritten: a register not written. -/
theorem witness_OnlyListedRegistersAreWritten :
    (∃ t, exec (.addReg 1 2) State.reset = .next t) ∧ writesReg (.addReg 1 2) 2 = false :=
  ⟨⟨_, rfl⟩, by decide⟩

/-- For SoundTimerIsNeverRead and DirtyFlagIsNeverRead: instructions that write and that do not. -/
theorem witness_never_read :
    (∃ t, exec (.ldStVx 4) State.reset = .next t) ∧ (∃ t, exec .cls State.reset = .next t) ∧
    ∃ t, exec (.ldVxDt 4) State.reset = .next t := ⟨⟨_, rfl⟩, ⟨_, rfl⟩, ⟨_, rfl⟩⟩

/-- For EndOfRunIsAParameter: a jump to itself at the last address that can be fetched. -/
theorem witness_EndOfRunIsAParameter :
    (atEnd 0x1FFE []).nextCall = (.cycle, atEnd 0x1FFE []) ∧ (atEnd 0x1FFE []).atSelfJump = true :=
  ⟨rfl, by decide⟩

end Sys2Proof.Tests
end

section
/-! PROOFS. The conditional skips (spec/40_control.md R144 to R147): what a skip answers, and what the words of the four skips decode to. -/

namespace Sys2Proof.Machine

theorem State.skipIf_pc (s : State) (c : Bool) :
    (s.skipIf c).pc = if c then s.pc + 2 else s.pc := by
  rw [State.skipIf_eq, State.setPc_pc]

/-- An instruction whose meaning is a skip answers a next state in which `pc` alone may have moved. -/
theorem exec_answers_of_skipIf {i : Instr} {s : State} {c : Bool}
    (h : exec i s = .next (s.skipIf c)) :
    ∃ t, exec i s = .next t ∧ OnlyChanges [.pc] s t ∧ t.pc = if c then s.pc + 2 else s.pc :=
  ⟨s.skipIf c, h, s.skipIf_frame c, s.skipIf_pc c⟩

/-- A skip on the equality of two bytes. -/
theorem exec_answers_of_skipIf_eq {i : Instr} {s : State} {a b : Byte}
    (h : exec i s = .next (s.skipIf (a == b))) :
    ∃ t, exec i s = .next t ∧ OnlyChanges [.pc] s t ∧ t.pc = if a = b then s.pc + 2 else s.pc := by
  simpa only [beq_iff_eq] using exec_answers_of_skipIf h

/-- A skip on the inequality of two bytes. -/
theorem exec_answers_of_skipIf_ne {i : Instr} {s : State} {a b : Byte}
    (h : exec i s = .next (s.skipIf (a != b))) :
    ∃ t, exec i s = .next t ∧ OnlyChanges [.pc] s t ∧ t.pc = if a = b then s.pc else s.pc + 2 := by
  simpa only [bne_iff_ne, ne_eq, ite_not] using exec_answers_of_skipIf h

/-! The meanings: each of the four instructions is one skip. -/

theorem exec_seImm (x : Reg) (nn : Byte) (s : State) :
    exec (.seImm x nn) s = .next (s.skipIf (s.readV x == nn)) := rfl

theorem exec_sneImm (x : Reg) (nn : Byte) (s : State) :
    exec (.sneImm x nn) s = .next (s.skipIf (s.readV x != nn)) := rfl

theorem exec_seReg (x y : Reg) (s : State) :
    exec (.seReg x y) s = .next (s.skipIf (s.readV x == s.readV y)) := rfl

theorem exec_sneReg (x y : Reg) (s : State) :
    exec (.sneReg x y) s = .next (s.skipIf (s.readV x != s.readV y)) := rfl

/-! The words: the format's field laws give `decode` its major opcode and operands. -/

theorem decode_formatXNN_seImm (x : Reg) (nn : Byte) :
    decode (formatXNN 0x3 x nn) = .instr (.seImm x nn) := by
  simp only [decode, fieldN4_formatXNN, fieldX_formatXNN, fieldNN_formatXNN, BitVec.reduceToNat]

theorem decode_formatXNN_sneImm (x : Reg) (nn : Byte) :
    decode (formatXNN 0x4 x nn) = .instr (.sneImm x nn) := by
  simp only [decode, fieldN4_formatXNN, fieldX_formatXNN, fieldNN_formatXNN, BitVec.reduceToNat]

/-- Group `5` by its lowest nibble (R108). -/
theorem decode_formatXYN_group5 (x y : Reg) (k : Nibble) :
    decode (formatXYN 0x5 x y k) =
      if k = 0 then .instr (.seReg x y) else .illegal (formatXYN 0x5 x y k) := by
  simp only [decode, fieldN4_formatXYN, fieldX_formatXYN, fieldY_formatXYN,
    fieldN_formatXYN, BitVec.reduceToNat]

/-- Group `9` by its lowest nibble (R108). -/
theorem decode_formatXYN_group9 (x y : Reg) (k : Nibble) :
    decode (formatXYN 0x9 x y k) =
      if k = 0 then .instr (.sneReg x y) else .illegal (formatXYN 0x9 x y k) := by
  simp only [decode, fieldN4_formatXYN, fieldX_formatXYN, fieldY_formatXYN,
    fieldN_formatXYN, BitVec.reduceToNat]

/-! The obligations. -/

/-- Settles O23: each of the two meanings is a skip on a comparison with `nn`, and the major opcode
alone decides how the word decodes. -/
theorem skipsOnImmediate : Obligations.SkipsOnImmediate := by
  intro x nn s
  exact ⟨exec_answers_of_skipIf_eq (exec_seImm x nn s),
    exec_answers_of_skipIf_ne (exec_sneImm x nn s),
    decode_formatXNN_seImm x nn, decode_formatXNN_sneImm x nn⟩

/-- Settles O24: each of the two meanings is a skip on a comparison of the registers, and in groups
`5` and `9` the lowest nibble decides how the word decodes. -/
theorem skipsOnRegisters : Obligations.SkipsOnRegisters := by
  intro x y s
  refine ⟨exec_answers_of_skipIf_eq (exec_seReg x y s),
    exec_answers_of_skipIf_ne (exec_sneReg x y s), ?_, ?_, fun k hk => ⟨?_, ?_⟩⟩
  · rw [decode_formatXYN_group5, if_pos rfl]
  · rw [decode_formatXYN_group9, if_pos rfl]
  · rw [decode_formatXYN_group5, if_neg hk]
  · rw [decode_formatXYN_group9, if_neg hk]

end Sys2Proof.Machine
end

section
/-! PROOFS. Immediate load and add, the move and the logic (spec/41_alu.md R170 to R175): what a write of one register answers, and what the words of these instructions decode to. -/

namespace Sys2Proof.Machine

/-- An instruction whose meaning is one register write answers a next state in which that register
alone may differ, and holds the value written. -/
theorem exec_answers_of_writeV {i : Instr} {s : State} {x : Reg} {b : Byte}
    (h : exec i s = .next (s.writeV x b)) :
    ∃ t, exec i s = .next t ∧ t.readV x = b ∧ RegsSameBut [x] s t ∧ OnlyChanges [.regs] s t :=
  ⟨s.writeV x b, h, by rw [State.readV_writeV, if_pos rfl], s.writeV_frame x b⟩

/-- A write of the modular sum of two bytes. -/
theorem exec_answers_of_writeV_add {i : Instr} {s : State} {x : Reg} {a b : Byte}
    (h : exec i s = .next (s.writeV x (a + b))) :
    ∃ t, exec i s = .next t ∧ (t.readV x).toNat = (a.toNat + b.toNat) % 256 ∧
      RegsSameBut [x] s t ∧ OnlyChanges [.regs] s t := by
  obtain ⟨t, ht, hvalue, hframe⟩ := exec_answers_of_writeV h
  exact ⟨t, ht, by rw [hvalue, BitVec.toNat_add], hframe⟩

/-- A write of two bytes combined by `op`, which acts on each pair of bits as `f`. -/
theorem exec_answers_of_writeV_bitwise {i : Instr} {s : State} {x : Reg} {a b : Byte}
    (op : Byte → Byte → Byte) (f : Bool → Bool → Bool)
    (hop : ∀ k, (op a b).getLsbD k = f (a.getLsbD k) (b.getLsbD k))
    (h : exec i s = .next (s.writeV x (op a b))) :
    ∃ t, exec i s = .next t ∧
      (∀ k < 8, (t.readV x).getLsbD k = f (a.getLsbD k) (b.getLsbD k)) ∧
      RegsSameBut [x] s t ∧ OnlyChanges [.regs] s t := by
  obtain ⟨t, ht, hvalue, hframe⟩ := exec_answers_of_writeV h
  exact ⟨t, ht, fun k _ => by rw [hvalue, hop], hframe⟩

/-! The meanings: each of the six instructions is one register write. -/

theorem exec_ldImm (x : Reg) (nn : Byte) (s : State) :
    exec (.ldImm x nn) s = .next (s.writeV x nn) := rfl

theorem exec_addImm (x : Reg) (nn : Byte) (s : State) :
    exec (.addImm x nn) s = .next (s.writeV x (s.readV x + nn)) := rfl

theorem exec_ldReg (x y : Reg) (s : State) :
    exec (.ldReg x y) s = .next (s.writeV x (s.readV y)) := rfl

theorem exec_orReg (x y : Reg) (s : State) :
    exec (.orReg x y) s = .next (s.writeV x (s.readV x ||| s.readV y)) := rfl

theorem exec_andReg (x y : Reg) (s : State) :
    exec (.andReg x y) s = .next (s.writeV x (s.readV x &&& s.readV y)) := rfl

theorem exec_xorReg (x y : Reg) (s : State) :
    exec (.xorReg x y) s = .next (s.writeV x (s.readV x ^^^ s.readV y)) := rfl

/-! The words: the format's field laws give `decode` its major opcode and operands. -/

theorem decode_formatXNN_ldImm (x : Reg) (nn : Byte) :
    decode (formatXNN 0x6 x nn) = .instr (.ldImm x nn) := by
  simp only [decode, fieldN4_formatXNN, fieldX_formatXNN, fieldNN_formatXNN, BitVec.reduceToNat]

theorem decode_formatXNN_addImm (x : Reg) (nn : Byte) :
    decode (formatXNN 0x7 x nn) = .instr (.addImm x nn) := by
  simp only [decode, fieldN4_formatXNN, fieldX_formatXNN, fieldNN_formatXNN, BitVec.reduceToNat]

/-- Group `8` by its lowest nibble, for the move and the logic (R108). -/
theorem decode_formatXYN_moveAndLogic (x y : Reg) :
    decode (formatXYN 0x8 x y 0) = .instr (.ldReg x y) ∧
    decode (formatXYN 0x8 x y 1) = .instr (.orReg x y) ∧
    decode (formatXYN 0x8 x y 2) = .instr (.andReg x y) ∧
    decode (formatXYN 0x8 x y 3) = .instr (.xorReg x y) := by
  refine ⟨?_, ?_, ?_, ?_⟩ <;>
    simp only [decode, decodeGroup8, fieldN4_formatXYN, fieldX_formatXYN, fieldY_formatXYN,
      fieldN_formatXYN, BitVec.reduceToNat]

/-! The obligations. -/

/-- Settles O25: each of the two meanings is one register write, and the major opcode alone decides
how the word decodes. -/
theorem immediateLoadAndAdd : Obligations.ImmediateLoadAndAdd := by
  intro x nn s
  exact ⟨exec_answers_of_writeV (exec_ldImm x nn s), exec_answers_of_writeV_add (exec_addImm x nn s),
    decode_formatXNN_ldImm x nn, decode_formatXNN_addImm x nn⟩

/-- Settles O26: each of the four meanings is one register write, the logic acts on each bit alone,
and in group `8` the lowest nibble decides how the word decodes. -/
theorem moveAndLogic : Obligations.MoveAndLogic := by
  intro x y s
  exact ⟨exec_answers_of_writeV (exec_ldReg x y s),
    exec_answers_of_writeV_bitwise (· ||| ·) or (fun _ => BitVec.getLsbD_or) (exec_orReg x y s),
    exec_answers_of_writeV_bitwise (· &&& ·) and (fun _ => BitVec.getLsbD_and) (exec_andReg x y s),
    exec_answers_of_writeV_bitwise (· ^^^ ·) xor (fun _ => BitVec.getLsbD_xor) (exec_xorReg x y s),
    decode_formatXYN_moveAndLogic x y⟩

end Sys2Proof.Machine
end

section
/-! PROOFS. The loads of `I` (spec/42_index_memory.md R200, R201): what a write of `I` answers, the address that each load writes, and what their words decode to. -/

namespace Sys2Proof.Machine

/-- An instruction whose meaning is one write of `I` answers a next state in which `I` alone may
differ, and holds the address written. -/
theorem exec_answers_of_setI {i : Instr} {s : State} {a : Word} (h : exec i s = .next (s.setI a)) :
    ∃ t, exec i s = .next t ∧ t.i.toNat = a.toNat ∧ OnlyChanges [.i] s t :=
  ⟨s.setI a, h, by rw [State.setI_i], s.setI_frame a⟩

/-! The addresses: zero extension keeps the value. -/

@[simp] theorem zext16_toNat (nnn : Addr12) : (zext16 nnn).toNat = nnn.toNat :=
  BitVec.toNat_setWidth_of_le (by decide)

@[simp] theorem byteToWord_toNat (b : Byte) : (byteToWord b).toNat = b.toNat :=
  BitVec.toNat_setWidth_of_le (by decide)

/-- A 12-bit address plus a byte is at most `0xFFF + 0xFF`, so the 16-bit sum does not wrap. -/
theorem zext16_add_byteToWord_toNat (nnn : Addr12) (b : Byte) :
    (zext16 nnn + byteToWord b).toNat = nnn.toNat + b.toNat := by
  have hnnn : nnn.toNat < 4096 := nnn.isLt
  have hb : b.toNat < 256 := b.isLt
  have hsum : (zext16 nnn).toNat + (byteToWord b).toNat < 2 ^ 16 := by
    rw [zext16_toNat, byteToWord_toNat]; omega
  rw [BitVec.toNat_add_of_lt hsum, zext16_toNat, byteToWord_toNat]

/-! The meanings: each of the two instructions is one write of `I`. -/

theorem exec_ldI (nnn : Addr12) (s : State) :
    exec (.ldI nnn) s = .next (s.setI (zext16 nnn)) := rfl

theorem exec_ldiV0 (nnn : Addr12) (s : State) :
    exec (.ldiV0 nnn) s = .next (s.setI (zext16 nnn + byteToWord (s.readV 0))) := rfl

/-! The words: the format's field laws give `decode` its major opcode and operand. -/

theorem decode_formatNNN_ldI (nnn : Addr12) : decode (formatNNN 0xA nnn) = .instr (.ldI nnn) := by
  simp only [decode, fieldN4_formatNNN, fieldNNN_formatNNN, BitVec.reduceToNat]

theorem decode_formatNNN_ldiV0 (nnn : Addr12) :
    decode (formatNNN 0xB nnn) = .instr (.ldiV0 nnn) := by
  simp only [decode, fieldN4_formatNNN, fieldNNN_formatNNN, BitVec.reduceToNat]

/-! The obligation. -/

/-- Settles O30: each of the two meanings is one write of `I`, the sum of `LDI V0, nnn` does not
wrap, and the major opcode alone decides how the word decodes. -/
theorem indexLoads : Obligations.IndexLoads := by
  intro nnn s
  have hldI := exec_answers_of_setI (exec_ldI nnn s)
  have hldiV0 := exec_answers_of_setI (exec_ldiV0 nnn s)
  rw [zext16_toNat] at hldI
  rw [zext16_add_byteToWord_toNat] at hldiV0
  exact ⟨hldI, hldiV0, decode_formatNNN_ldI nnn, decode_formatNNN_ldiV0 nnn⟩

end Sys2Proof.Machine
end

section
/-! PROOFS. Clearing the screen (spec/43_display.md R231): what a write of the framebuffer and the dirty mark leaves unchanged, and what the word of `CLS` decodes to. -/

namespace Sys2Proof.Machine

/-- A write of the framebuffer and the dirty mark changes these two alone: `VF` too is kept. -/
theorem State.setFb_setDirty_frame (s : State) (f : Framebuffer) (d : Bool) :
    OnlyChanges [.fb, .dirty] s ((s.setFb f).setDirty d) := by
  intro e he; cases e <;> simp_all [Element.same]

/-- The meaning: one write of the blank framebuffer, marked dirty whatever stood there before. -/
theorem exec_cls (s : State) :
    exec .cls s = .next ((s.setFb Framebuffer.blank).setDirty true) := rfl

theorem decode_cls_word : decode 0x00E0 = .instr .cls := by decide

/-! The obligation. -/

/-- Settles O40: the meaning is a write of the blank framebuffer, of which every pixel is false, and
of the dirty mark. -/
theorem clearScreen : Obligations.ClearScreen := by
  refine ⟨decode_cls_word, fun s => ⟨_, exec_cls s, fun px py => ?_, ?_, ?_⟩⟩
  · rw [State.setDirty_fb, State.setFb_fb, Framebuffer.pixel_blank]
  · rw [State.setDirty_dirty]
  · exact s.setFb_setDirty_frame Framebuffer.blank true

end Sys2Proof.Machine
end

section
/-! PROOFS. The key wait and the timer moves (spec/44_random_keys_timers.md R263 to R266): what each meaning answers, and what their words decode to. -/

namespace Sys2Proof.Machine

/-- A write of the delay timer changes it alone. -/
theorem State.setDt_frame (s : State) (b : Byte) : OnlyChanges [.dt] s (s.setDt b) := by
  intro e he; cases e <;> simp_all [Element.same]

/-- A write of the sound timer changes it alone. -/
theorem State.setSt_frame (s : State) (b : Byte) : OnlyChanges [.st] s (s.setSt b) := by
  intro e he; cases e <;> simp_all [Element.same]

/-- A key's number fits the byte. -/
@[simp] theorem keyByte_toNat (k : Fin 16) : (keyByte k).toNat = k.val := by
  rw [keyByte, BitVec.toNat_ofNat, Nat.mod_eq_of_lt (k.isLt.trans (by decide))]

/-! The meanings: the key wait goes back or writes one register, as the lowest pressed key decides;
each timer move is one write. -/

theorem exec_ldVxK_of_none (x : Reg) {s : State} (h : s.lowestKey = none) :
    exec (.ldVxK x) s = .next (s.setPc (s.pc - 2)) := by
  simp only [exec, execLdVxK, h]

theorem exec_ldVxK_of_some (x : Reg) {s : State} {k : Fin 16} (h : s.lowestKey = some k) :
    exec (.ldVxK x) s = .next (s.writeV x (keyByte k)) := by
  simp only [exec, execLdVxK, h]

theorem exec_ldVxDt (x : Reg) (s : State) : exec (.ldVxDt x) s = .next (s.writeV x s.dt) := rfl

theorem exec_ldDtVx (x : Reg) (s : State) : exec (.ldDtVx x) s = .next (s.setDt (s.readV x)) := rfl

theorem exec_ldStVx (x : Reg) (s : State) : exec (.ldStVx x) s = .next (s.setSt (s.readV x)) := rfl

/-! The words: major opcode `F` sends the word to its group, where the low byte selects (R108). -/

theorem decode_formatXNN_groupF (x : Reg) (nn : Byte) :
    decode (formatXNN 0xF x nn) = decodeGroupF (formatXNN 0xF x nn) := by
  simp only [decode, fieldN4_formatXNN, BitVec.reduceToNat]

theorem decode_formatXNN_ldVxDt (x : Reg) :
    decode (formatXNN 0xF x 0x07) = .instr (.ldVxDt x) := by
  rw [decode_formatXNN_groupF, decodeGroupF]
  simp

theorem decode_formatXNN_ldVxK (x : Reg) :
    decode (formatXNN 0xF x 0x0A) = .instr (.ldVxK x) := by
  rw [decode_formatXNN_groupF, decodeGroupF]
  simp

theorem decode_formatXNN_ldDtVx (x : Reg) :
    decode (formatXNN 0xF x 0x15) = .instr (.ldDtVx x) := by
  rw [decode_formatXNN_groupF, decodeGroupF]
  simp

theorem decode_formatXNN_ldStVx (x : Reg) :
    decode (formatXNN 0xF x 0x18) = .instr (.ldStVx x) := by
  rw [decode_formatXNN_groupF, decodeGroupF]
  simp

/-! The obligations. -/

/-- Settles O47: with no key pressed the meaning is a write of `pc`, and with a lowest pressed key it
is one register write of that key's number. -/
theorem keyWait : Obligations.KeyWait := by
  intro x s
  refine ⟨decode_formatXNN_ldVxK x, fun hnone => ?_, fun k hk hlowest => ?_⟩
  · have hexec := exec_ldVxK_of_none x (s.lowestKey_none hnone)
    exact ⟨_, hexec, s.setPc_pc _, s.setPc_frame _⟩
  · have hexec := exec_ldVxK_of_some x (s.lowestKey_some k hk hlowest)
    obtain ⟨t, ht, hvalue, hframe⟩ := exec_answers_of_writeV hexec
    exact ⟨t, ht, by rw [hvalue, keyByte_toNat], hframe⟩

/-- Settles O49: each of the three meanings is one write, of a register or of a timer, and in group
`F` the low byte decides how the word decodes. -/
theorem timerReadsAndWrites : Obligations.TimerReadsAndWrites := by
  intro x s
  exact ⟨exec_answers_of_writeV (exec_ldVxDt x s),
    ⟨_, exec_ldDtVx x s, s.setDt_dt _, s.setDt_frame _⟩,
    ⟨_, exec_ldStVx x s, s.setSt_st _, s.setSt_frame _⟩,
    decode_formatXNN_ldVxDt x, decode_formatXNN_ldDtVx x, decode_formatXNN_ldStVx x⟩

end Sys2Proof.Machine
end

section
/-! PROOFS. The encoding as a whole (spec/30_encoding.md sections 2 to 4): decoding undoes encoding, encoding undoes decoding, and the table of R107 and the map of R108 accept the words the decoder accepts. -/

namespace Sys2Proof

open Machine

/-- The decoder gives back the instruction whose word it reads: the laws of the instruction's format
give it the major opcode, the function field and the operands. -/
theorem decode_encode (i : Instr) : decode (encode i) = .instr i := by
  cases i with
  | nop | cls | ret => decide
  | jp | call | ldI | ldiV0 =>
    simp only [encode, decode, fieldN4_formatNNN, fieldNNN_formatNNN, BitVec.reduceToNat]
  | seImm | sneImm | ldImm | addImm | rnd =>
    simp only [encode, decode, fieldN4_formatXNN, fieldX_formatXNN, fieldNN_formatXNN,
      BitVec.reduceToNat]
  | seReg x y => exact decode_formatXYN_group5 x y 0
  | sneReg x y => exact decode_formatXYN_group9 x y 0
  | drw =>
    simp only [encode, decode, fieldN4_formatXYN, fieldX_formatXYN, fieldY_formatXYN,
      fieldN_formatXYN, BitVec.reduceToNat]
  | ldReg | orReg | andReg | xorReg | addReg | subReg | shrReg | subnReg | shlReg =>
    simp only [encode, decode, decodeGroup8, fieldN4_formatXYN, fieldX_formatXYN, fieldY_formatXYN,
      fieldN_formatXYN, BitVec.reduceToNat]
  | skp | sknp => simp [encode, decode, decodeGroupE]
  | ldVxDt | ldVxK | ldDtVx | ldStVx | addI | ldF | ldB | storeRegs | loadRegs =>
    rw [encode, decode_formatXNN_groupF, decodeGroupF]
    simp

/-! What a decoder can answer: the word's instruction, or the word itself as illegal. -/

/-- A sound answer to the word `w`: an instruction whose word is `w`, or `w` itself as illegal. -/
def Decoded.Sound (w : Word) : Decoded → Prop
  | .instr i => encode i = w
  | .illegal w' => w' = w

/-- A word with major opcode `a` is of format `NNN`. -/
theorem formatNNN_of_major {w : Word} {a : BitVec 4} (h : (fieldN4 w).toNat = a.toNat) :
    formatNNN a (fieldNNN w) = w := by
  rw [← BitVec.eq_of_toNat_eq h, formatNNN_of_fields]

/-- A word with major opcode `a` is of format `XNN`. -/
theorem formatXNN_of_major {w : Word} {a : BitVec 4} (h : (fieldN4 w).toNat = a.toNat) :
    formatXNN a (fieldX w) (fieldNN w) = w := by
  rw [← BitVec.eq_of_toNat_eq h, formatXNN_of_fields]

/-- A word with major opcode `a` is of format `XYN`. -/
theorem formatXYN_of_major {w : Word} {a : BitVec 4} (h : (fieldN4 w).toNat = a.toNat) :
    formatXYN a (fieldX w) (fieldY w) (fieldN w) = w := by
  rw [← BitVec.eq_of_toNat_eq h, formatXYN_of_fields]

/-- A word with major opcode `a` and low byte `b` is of format `XK`. -/
theorem formatXK_of_fields {w : Word} {a : BitVec 4} {b : Byte} (h : (fieldN4 w).toNat = a.toNat)
    (hb : fieldNN w = b) : formatXNN a (fieldX w) b = w := by
  rw [← hb, formatXNN_of_major h]

/-- A word with major opcode `a` and lowest nibble `n` is of format `XY`. -/
theorem formatXY_of_fields {w : Word} {a : BitVec 4} {n : Nibble} (h : (fieldN4 w).toNat = a.toNat)
    (hn : (fieldN w).toNat = n.toNat) : formatXYN a (fieldX w) (fieldY w) n = w := by
  rw [← BitVec.eq_of_toNat_eq hn, formatXYN_of_major h]

theorem decodeGroup0_sound (w : Word) : Decoded.Sound w (decodeGroup0 w) := by
  unfold decodeGroup0
  split_ifs with h0 hE0 hEE
  · exact h0.symm
  · exact hE0.symm
  · exact hEE.symm
  · rfl

theorem decodeGroup8_sound {w : Word} (h : (fieldN4 w).toNat = 8) :
    Decoded.Sound w (decodeGroup8 w) := by
  unfold decodeGroup8
  split
  case h_10 => rfl
  all_goals exact formatXY_of_fields h ‹_›

theorem decodeGroupE_sound {w : Word} (h : (fieldN4 w).toNat = 14) :
    Decoded.Sound w (decodeGroupE w) := by
  unfold decodeGroupE
  split_ifs
  case neg => rfl
  all_goals exact formatXK_of_fields h ‹_›

theorem decodeGroupF_sound {w : Word} (h : (fieldN4 w).toNat = 15) :
    Decoded.Sound w (decodeGroupF w) := by
  unfold decodeGroupF
  split_ifs
  case neg => rfl
  all_goals exact formatXK_of_fields h ‹_›

theorem decode_sound (w : Word) : Decoded.Sound w (decode w) := by
  unfold decode
  split <;> rename_i h
  · exact decodeGroup0_sound w
  · exact formatNNN_of_major h
  · exact formatNNN_of_major h
  · exact formatXNN_of_major h
  · exact formatXNN_of_major h
  · split_ifs with hn
    · exact formatXY_of_fields h (congrArg BitVec.toNat hn)
    · rfl
  · exact formatXNN_of_major h
  · exact formatXNN_of_major h
  · exact decodeGroup8_sound h
  · split_ifs with hn
    · exact formatXY_of_fields h (congrArg BitVec.toNat hn)
    · rfl
  · exact formatNNN_of_major h
  · exact formatNNN_of_major h
  · exact formatXNN_of_major h
  · exact formatXYN_of_major h
  · exact decodeGroupE_sound h
  · exact decodeGroupF_sound h
  · rfl

theorem encode_of_decode {w : Word} {i : Instr} (h : decode w = .instr i) : encode i = w := by
  have hs := decode_sound w
  rwa [h] at hs

theorem illegal_payload {w w' : Word} (h : decode w = .illegal w') : w' = w := by
  have hs := decode_sound w
  rwa [h] at hs

theorem decode_eq_instr_iff {w : Word} {i : Instr} : decode w = .instr i ↔ encode i = w :=
  ⟨encode_of_decode, fun h => h ▸ decode_encode i⟩

/-! The table of R107. -/

theorem row_mem_opcodeRows (i : Instr) : i.row ∈ opcodeRows := by
  cases i <;> simp [Instr.row, opcodeRows, opcodeRowsLow, opcodeRowsMid, opcodeRowsHigh]

theorem OpcodeRow.admits_iff (r : OpcodeRow) (w : Word) :
    r.admits w = true ↔ w &&& r.mask = r.value :=
  beq_iff_eq

open Laws in
/-- The word of an instruction belongs to its row. -/
theorem row_admits_encode (i : Instr) : i.row.admits (encode i) = true := by
  rw [OpcodeRow.admits_iff]
  cases i with
  | nop => exact EncodingRow.nop
  | cls => exact EncodingRow.cls
  | ret => exact EncodingRow.ret
  | jp nnn => exact EncodingRow.jp nnn
  | call nnn => exact EncodingRow.call nnn
  | seImm x nn => exact EncodingRow.seImm x nn
  | sneImm x nn => exact EncodingRow.sneImm x nn
  | seReg x y => exact EncodingRow.seReg x y
  | ldImm x nn => exact EncodingRow.ldImm x nn
  | addImm x nn => exact EncodingRow.addImm x nn
  | ldReg x y => exact EncodingRow.ldReg x y
  | orReg x y => exact EncodingRow.orReg x y
  | andReg x y => exact EncodingRow.andReg x y
  | xorReg x y => exact EncodingRow.xorReg x y
  | addReg x y => exact EncodingRow.addReg x y
  | subReg x y => exact EncodingRow.subReg x y
  | shrReg x y => exact EncodingRow.shrReg x y
  | subnReg x y => exact EncodingRow.subnReg x y
  | shlReg x y => exact EncodingRow.shlReg x y
  | sneReg x y => exact EncodingRow.sneReg x y
  | ldI nnn => exact EncodingRow.ldI nnn
  | ldiV0 nnn => exact EncodingRow.ldiV0 nnn
  | rnd x nn => exact EncodingRow.rnd x nn
  | drw x y n => exact EncodingRow.drw x y n
  | skp x => exact EncodingRow.skp x
  | sknp x => exact EncodingRow.sknp x
  | ldVxDt x => exact EncodingRow.ldVxDt x
  | ldVxK x => exact EncodingRow.ldVxK x
  | ldDtVx x => exact EncodingRow.ldDtVx x
  | ldStVx x => exact EncodingRow.ldStVx x
  | addI x => exact EncodingRow.addI x
  | ldF x => exact EncodingRow.ldF x
  | ldB x => exact EncodingRow.ldB x
  | storeRegs x => exact EncodingRow.storeRegs x
  | loadRegs x => exact EncodingRow.loadRegs x

/-- Two rows disagree on a bit both masks fix. -/
def OpcodeRow.Apart (r q : OpcodeRow) : Prop := r.value &&& q.mask ≠ q.value &&& r.mask

theorem OpcodeRow.Apart.symm {r q : OpcodeRow} (h : r.Apart q) : q.Apart r := Ne.symm h

/-- No word belongs to two rows apart. -/
theorem OpcodeRow.Apart.not_admits_both {r q : OpcodeRow} (h : r.Apart q) {w : Word}
    (hr : r.admits w = true) : q.admits w = false := by
  rw [OpcodeRow.admits_iff] at hr
  rw [Bool.eq_false_iff, Ne, OpcodeRow.admits_iff]
  intro hq
  apply h
  rw [← hr, ← hq, BitVec.and_assoc, BitVec.and_assoc, BitVec.and_comm r.mask]

/-- The 35 patterns do not overlap (R107). -/
theorem opcodeRows_pairwise_apart : opcodeRows.Pairwise OpcodeRow.Apart := by
  unfold OpcodeRow.Apart
  decide

theorem opcodeRows_unique {r q : OpcodeRow} (hr : r ∈ opcodeRows) (hq : q ∈ opcodeRows) {w : Word}
    (hrw : r.admits w = true) (hqw : q.admits w = true) : r = q := by
  by_contra hne
  have : Std.Symm OpcodeRow.Apart := ⟨fun _ _ => OpcodeRow.Apart.symm⟩
  have hapart := opcodeRows_pairwise_apart.forall hr hq hne
  simp [hapart.not_admits_both hrw] at hqw

/-! A word a row admits has the fields the row's mask fixes. -/

theorem fieldN4_of_admits {w m v : Word} (h : w &&& m = v) (hm : fieldN4 m = 0xF) :
    fieldN4 w = fieldN4 v := by
  rw [← h, fieldN4_and, hm]
  exact BitVec.and_allOnes.symm

theorem fieldNN_of_admits {w m v : Word} (h : w &&& m = v) (hm : fieldNN m = 0xFF) :
    fieldNN w = fieldNN v := by
  rw [← h, fieldNN_and, hm]
  exact BitVec.and_allOnes.symm

theorem fieldN_of_admits {w m v : Word} (h : w &&& m = v) (hm : fieldN m = 0xF) :
    fieldN w = fieldN v := by
  have hand : fieldN (w &&& m) = fieldN w &&& fieldN m := by simp [fieldN, BitVec.extractLsb'_and]
  rw [← h, hand, hm]
  exact BitVec.and_allOnes.symm

theorem formatNNN_of_admits (a : BitVec 4) {w v : Word} (h : w &&& 0xF000 = v)
    (ha : fieldN4 v = a) : formatNNN a (fieldNNN w) = w :=
  formatNNN_of_major (congrArg BitVec.toNat ((fieldN4_of_admits h (by decide)).trans ha))

theorem formatXNN_of_admits (a : BitVec 4) {w v : Word} (h : w &&& 0xF000 = v)
    (ha : fieldN4 v = a) : formatXNN a (fieldX w) (fieldNN w) = w :=
  formatXNN_of_major (congrArg BitVec.toNat ((fieldN4_of_admits h (by decide)).trans ha))

theorem formatXYN_of_admits (a : BitVec 4) {w v : Word} (h : w &&& 0xF000 = v)
    (ha : fieldN4 v = a) : formatXYN a (fieldX w) (fieldY w) (fieldN w) = w :=
  formatXYN_of_major (congrArg BitVec.toNat ((fieldN4_of_admits h (by decide)).trans ha))

theorem formatXY_of_admits (a : BitVec 4) (n : Nibble) {w v : Word} (h : w &&& 0xF00F = v)
    (ha : fieldN4 v = a) (hn : fieldN v = n) : formatXYN a (fieldX w) (fieldY w) n = w :=
  formatXY_of_fields (congrArg BitVec.toNat ((fieldN4_of_admits h (by decide)).trans ha))
    (congrArg BitVec.toNat ((fieldN_of_admits h (by decide)).trans hn))

theorem formatXK_of_admits (a : BitVec 4) (b : Byte) {w v : Word} (h : w &&& 0xF0FF = v)
    (ha : fieldN4 v = a) (hb : fieldNN v = b) : formatXNN a (fieldX w) b = w :=
  formatXK_of_fields (congrArg BitVec.toNat ((fieldN4_of_admits h (by decide)).trans ha))
    ((fieldNN_of_admits h (by decide)).trans hb)

theorem eq_of_admits {w v : Word} (h : w &&& 0xFFFF = v) : v = w := by
  rw [← h]
  exact BitVec.and_allOnes

/-! Every word of a row is the word of an instruction. -/

theorem exists_encode_of_admits_low {w : Word} {r : OpcodeRow} (hr : r ∈ opcodeRowsLow)
    (hw : w &&& r.mask = r.value) : ∃ i, encode i = w := by
  simp only [opcodeRowsLow, List.mem_cons, List.not_mem_nil, or_false] at hr
  rcases hr with rfl | rfl | rfl | rfl | rfl | rfl | rfl | rfl | rfl | rfl
  · exact ⟨.nop, eq_of_admits hw⟩
  · exact ⟨.cls, eq_of_admits hw⟩
  · exact ⟨.ret, eq_of_admits hw⟩
  · exact ⟨.jp (fieldNNN w), formatNNN_of_admits 0x1 hw (by decide)⟩
  · exact ⟨.call (fieldNNN w), formatNNN_of_admits 0x2 hw (by decide)⟩
  · exact ⟨.seImm (fieldX w) (fieldNN w), formatXNN_of_admits 0x3 hw (by decide)⟩
  · exact ⟨.sneImm (fieldX w) (fieldNN w), formatXNN_of_admits 0x4 hw (by decide)⟩
  · exact ⟨.seReg (fieldX w) (fieldY w), formatXY_of_admits 0x5 0x0 hw (by decide) (by decide)⟩
  · exact ⟨.ldImm (fieldX w) (fieldNN w), formatXNN_of_admits 0x6 hw (by decide)⟩
  · exact ⟨.addImm (fieldX w) (fieldNN w), formatXNN_of_admits 0x7 hw (by decide)⟩

theorem exists_encode_of_admits_mid {w : Word} {r : OpcodeRow} (hr : r ∈ opcodeRowsMid)
    (hw : w &&& r.mask = r.value) : ∃ i, encode i = w := by
  simp only [opcodeRowsMid, List.mem_cons, List.not_mem_nil, or_false] at hr
  rcases hr with rfl | rfl | rfl | rfl | rfl | rfl | rfl | rfl | rfl | rfl | rfl | rfl | rfl | rfl
  · exact ⟨.ldReg (fieldX w) (fieldY w), formatXY_of_admits 0x8 0x0 hw (by decide) (by decide)⟩
  · exact ⟨.orReg (fieldX w) (fieldY w), formatXY_of_admits 0x8 0x1 hw (by decide) (by decide)⟩
  · exact ⟨.andReg (fieldX w) (fieldY w), formatXY_of_admits 0x8 0x2 hw (by decide) (by decide)⟩
  · exact ⟨.xorReg (fieldX w) (fieldY w), formatXY_of_admits 0x8 0x3 hw (by decide) (by decide)⟩
  · exact ⟨.addReg (fieldX w) (fieldY w), formatXY_of_admits 0x8 0x4 hw (by decide) (by decide)⟩
  · exact ⟨.subReg (fieldX w) (fieldY w), formatXY_of_admits 0x8 0x5 hw (by decide) (by decide)⟩
  · exact ⟨.shrReg (fieldX w) (fieldY w), formatXY_of_admits 0x8 0x6 hw (by decide) (by decide)⟩
  · exact ⟨.subnReg (fieldX w) (fieldY w), formatXY_of_admits 0x8 0x7 hw (by decide) (by decide)⟩
  · exact ⟨.shlReg (fieldX w) (fieldY w), formatXY_of_admits 0x8 0xE hw (by decide) (by decide)⟩
  · exact ⟨.sneReg (fieldX w) (fieldY w), formatXY_of_admits 0x9 0x0 hw (by decide) (by decide)⟩
  · exact ⟨.ldI (fieldNNN w), formatNNN_of_admits 0xA hw (by decide)⟩
  · exact ⟨.ldiV0 (fieldNNN w), formatNNN_of_admits 0xB hw (by decide)⟩
  · exact ⟨.rnd (fieldX w) (fieldNN w), formatXNN_of_admits 0xC hw (by decide)⟩
  · exact ⟨.drw (fieldX w) (fieldY w) (fieldN w), formatXYN_of_admits 0xD hw (by decide)⟩

theorem exists_encode_of_admits_high {w : Word} {r : OpcodeRow} (hr : r ∈ opcodeRowsHigh)
    (hw : w &&& r.mask = r.value) : ∃ i, encode i = w := by
  simp only [opcodeRowsHigh, List.mem_cons, List.not_mem_nil, or_false] at hr
  rcases hr with rfl | rfl | rfl | rfl | rfl | rfl | rfl | rfl | rfl | rfl | rfl
  · exact ⟨.skp (fieldX w), formatXK_of_admits 0xE 0x9E hw (by decide) (by decide)⟩
  · exact ⟨.sknp (fieldX w), formatXK_of_admits 0xE 0xA1 hw (by decide) (by decide)⟩
  · exact ⟨.ldVxDt (fieldX w), formatXK_of_admits 0xF 0x07 hw (by decide) (by decide)⟩
  · exact ⟨.ldVxK (fieldX w), formatXK_of_admits 0xF 0x0A hw (by decide) (by decide)⟩
  · exact ⟨.ldDtVx (fieldX w), formatXK_of_admits 0xF 0x15 hw (by decide) (by decide)⟩
  · exact ⟨.ldStVx (fieldX w), formatXK_of_admits 0xF 0x18 hw (by decide) (by decide)⟩
  · exact ⟨.addI (fieldX w), formatXK_of_admits 0xF 0x1E hw (by decide) (by decide)⟩
  · exact ⟨.ldF (fieldX w), formatXK_of_admits 0xF 0x29 hw (by decide) (by decide)⟩
  · exact ⟨.ldB (fieldX w), formatXK_of_admits 0xF 0x33 hw (by decide) (by decide)⟩
  · exact ⟨.storeRegs (fieldX w), formatXK_of_admits 0xF 0x55 hw (by decide) (by decide)⟩
  · exact ⟨.loadRegs (fieldX w), formatXK_of_admits 0xF 0x65 hw (by decide) (by decide)⟩

theorem exists_encode_of_admits {w : Word} {r : OpcodeRow} (hr : r ∈ opcodeRows)
    (hw : r.admits w = true) : ∃ i, encode i = w := by
  rw [OpcodeRow.admits_iff] at hw
  rw [opcodeRows, List.mem_append, List.mem_append] at hr
  rcases hr with (hlow | hmid) | hhigh
  · exact exists_encode_of_admits_low hlow hw
  · exact exists_encode_of_admits_mid hmid hw
  · exact exists_encode_of_admits_high hhigh hw

/-- The table accepts the words that decode to an instruction. -/
theorem exists_row_admits_iff (w : Word) :
    (∃ r ∈ opcodeRows, r.admits w = true) ↔ ∃ i, decode w = .instr i := by
  simp only [decode_eq_instr_iff]
  constructor
  · rintro ⟨r, hr, hw⟩
    exact exists_encode_of_admits hr hw
  · rintro ⟨i, rfl⟩
    exact ⟨i.row, row_mem_opcodeRows i, row_admits_encode i⟩

/-- A word is illegal exactly when it is no instruction's. -/
theorem decode_eq_illegal_self_iff (w : Word) :
    decode w = .illegal w ↔ ¬ ∃ i, decode w = .instr i := by
  cases h : decode w with
  | instr i => simp
  | illegal w' => simp [illegal_payload h]

/-! The opcode map of R108, group by group. -/

theorem group0_iff (w : Word) : WellFormed.group0 w = true ↔ ∃ i, decodeGroup0 w = .instr i := by
  unfold WellFormed.group0 decodeGroup0
  split_ifs <;> simp_all

theorem group8_iff (w : Word) : WellFormed.group8 w = true ↔ ∃ i, decodeGroup8 w = .instr i := by
  have hE : fieldN w = 0xE ↔ (fieldN w).toNat = 14 := (BitVec.toNat_inj (y := 0xE#4)).symm
  unfold WellFormed.group8 decodeGroup8
  simp only [Bool.or_eq_true, decide_eq_true_eq, beq_iff_eq]
  rw [show w.extractLsb' 0 4 = fieldN w from rfl, hE]
  split <;> simp_all
  omega

theorem groupE_iff (w : Word) : WellFormed.groupE w = true ↔ ∃ i, decodeGroupE w = .instr i := by
  unfold WellFormed.groupE decodeGroupE fieldNN
  split_ifs <;> simp_all

theorem groupF_iff (w : Word) : WellFormed.groupF w = true ↔ ∃ i, decodeGroupF w = .instr i := by
  unfold WellFormed.groupF decodeGroupF fieldNN
  split_ifs <;> simp_all

theorem lastNibbleZero_iff (w : Word) (i : Instr) :
    WellFormed.lastNibbleZero w = true ↔
      ∃ j, (if fieldN w = 0 then Decoded.instr i else .illegal w) = .instr j := by
  unfold WellFormed.lastNibbleZero fieldN
  split_ifs <;> simp_all

/-- The map accepts the words that decode to an instruction. -/
theorem word_iff (w : Word) : WellFormed.word w = true ↔ ∃ i, decode w = .instr i := by
  have hlt : (fieldN4 w).toNat < 16 := (fieldN4 w).isLt
  unfold WellFormed.word decode
  rw [show w.extractLsb' 12 4 = fieldN4 w from rfl]
  generalize (fieldN4 w).toNat = k at hlt
  interval_cases k
  · exact group0_iff w
  iterate 4 · simp
  · exact lastNibbleZero_iff w _
  iterate 2 · simp
  · exact group8_iff w
  · exact lastNibbleZero_iff w _
  iterate 4 · simp
  · exact groupE_iff w
  · exact groupF_iff w

/-! The obligations. -/

/-- Settles O1: the decoder gives back every encoded instruction, and the two bytes of a word make
that word again. -/
theorem decodeOfEncodeIsTheInstruction : Obligations.DecodeOfEncodeIsTheInstruction := by
  intro i
  refine ⟨decode_encode i, ?_⟩
  rw [decodeBytes, wordOfBytes_highByte_lowByte, decode_encode]

/-- Settles O2: on each branch of the decoder the fields read from the word put it together again. -/
theorem encodeOfDecodeIsTheWord : Obligations.EncodeOfDecodeIsTheWord := by
  intro w i h
  exact encode_of_decode h

/-- Settles O3: the word is the instruction's own, so it belongs to the instruction's row, and the
rows are apart. -/
theorem decodedWordMatchesItsRowOnly : Obligations.DecodedWordMatchesItsRowOnly := by
  intro w i h
  have hrow : i.row.admits w = true := encode_of_decode h ▸ row_admits_encode i
  exact ⟨row_mem_opcodeRows i, hrow,
    fun r hr hw => opcodeRows_unique hr (row_mem_opcodeRows i) hw hrow⟩

/-- Settles O4: the table accepts exactly the words of instructions, and the decoder answers every
other word with itself. -/
theorem illegalExactlyWhenNoRowMatches : Obligations.IllegalExactlyWhenNoRowMatches := by
  intro w
  refine ⟨?_, fun w' h => illegal_payload h⟩
  rw [decode_eq_illegal_self_iff, ← exists_row_admits_iff]
  simp

/-- Settles O5: the map and the decoder agree in each group of major opcodes. -/
theorem opcodeMapAgreesWithDecoder : Obligations.OpcodeMapAgreesWithDecoder := by
  intro w
  exact word_iff w

/-- Settles O6: each word is evaluated. -/
theorem someWordsDecodeAsWritten : Obligations.SomeWordsDecodeAsWritten := by
  unfold Obligations.SomeWordsDecodeAsWritten
  decide

end Sys2Proof
end

section
/-! PROOFS. Frames put together, and the meanings of the instructions as equations (spec/40_control.md to spec/44_random_keys_timers.md): one rule for each state operation and each instruction that the sections above do not have. -/

namespace Sys2Proof.Machine

/-! Frames compose. -/

theorem Element.same_trans {e : Element} {s t u : State} (h : e.same s t) (h' : e.same t u) :
    e.same s u := by
  cases e with
  | mem => exact fun a => (h' a).trans (h a)
  | regs => exact fun r => (h' r).trans (h r)
  | fb => exact fun px py => (h' px py).trans (h px py)
  | keys => exact fun k => (h' k).trans (h k)
  | pc | i | stack | dt | st | dirty | calls | result | errorSeen | draws => exact Eq.trans h' h

theorem OnlyChanges.mono {es fs : List Element} {s t : State} (h : OnlyChanges es s t)
    (hsub : ∀ e ∈ es, e ∈ fs) : OnlyChanges fs s t :=
  fun e he => h e (mt (hsub e) he)

theorem OnlyChanges.trans {es fs : List Element} {s t u : State} (h : OnlyChanges es s t)
    (h' : OnlyChanges fs t u) : OnlyChanges (es ++ fs) s u := by
  intro e he
  rw [List.mem_append, not_or] at he
  exact Element.same_trans (h e he.1) (h' e he.2)

/-- A part that is written but ends as it was is not changed. -/
theorem OnlyChanges.drop {e : Element} {es : List Element} {s t : State}
    (h : OnlyChanges (e :: es) s t) (hsame : e.same s t) : OnlyChanges es s t := by
  intro f hf
  by_cases hfe : f = e
  · exact hfe ▸ hsame
  · exact h f (by simp [hfe, hf])

theorem State.setMem_frame (s : State) (m : Memory) : OnlyChanges [.mem] s (s.setMem m) := by
  intro e he; cases e <;> simp_all [Element.same]

theorem State.setStack_frame (s : State) (l : List Word) :
    OnlyChanges [.stack] s (s.setStack l) := by
  intro e he; cases e <;> simp_all [Element.same]

/-- A write of `pc` and the stack changes these two alone. -/
theorem State.setStack_setPc_frame (s : State) (l : List Word) (a : Word) :
    OnlyChanges [.pc, .stack] s ((s.setStack l).setPc a) :=
  ((s.setStack_frame l).trans (State.setPc_frame _ a)).mono (by simp)

theorem State.setKeys_frame (s : State) (k : Vector Bool 16) :
    OnlyChanges [.keys] s (s.setKeys k) := by
  intro e he; cases e <;> simp_all [Element.same]

theorem State.setDirty_frame (s : State) (d : Bool) : OnlyChanges [.dirty] s (s.setDirty d) := by
  intro e he; cases e <;> simp_all [Element.same]

theorem State.setResult_frame (s : State) (r : CallResult) :
    OnlyChanges [.result] s (s.setResult r) := by
  intro e he; cases e <;> simp_all [Element.same]

theorem State.setCalls_frame (s : State) (c : List DriverCall) :
    OnlyChanges [.calls] s (s.setCalls c) := by
  intro e he; cases e <;> simp_all [Element.same]

theorem State.countDraw_frame (s : State) : OnlyChanges [.draws] s s.countDraw := by
  intro e he; cases e <;> simp_all [Element.same]

theorem State.fail_frame (s : State) (e : OpError) :
    OnlyChanges [.result, .errorSeen] s (s.fail e) := by
  intro el he; cases el <;> simp_all [Element.same]

theorem State.putRegs_frame (s : State) (k : Nat) (bs : List Byte) :
    OnlyChanges [.regs] s (s.putRegs k bs) := by
  obtain ⟨w, hw⟩ := s.putRegs_only_regs k bs
  rw [hw]
  intro e he; cases e <;> simp_all [Element.same, State.keyDown]

/-! Bytes laid over a memory. -/

/-- `m` is the memory `old` with the bytes `bs` from address `a` up, canonical if `old` is. -/
structure Memory.Overlay (old m : Memory) (a : Nat) (bs : List Byte) : Prop where
  read : ∀ c, Memory.read m c =
    if a ≤ c ∧ c < a + bs.length then bs.getD (c - a) 0 else Memory.read old c
  wf : Memory.wf old = true → Memory.wf m = true

theorem Memory.Overlay.read_inside {old m : Memory} {a : Nat} {bs : List Byte}
    (h : Memory.Overlay old m a bs) {k : Nat} (hk : k < bs.length) :
    Memory.read m (a + k) = bs.getD k 0 := by
  rw [h.read, if_pos (by omega), Nat.add_sub_cancel_left]

theorem Memory.Overlay.sameOutside {s t : State} {a : Nat} {bs : List Byte}
    (h : Memory.Overlay s.mem t.mem a bs) {n : Nat} (hn : bs.length = n) :
    MemSameOutside a n s t := by
  subst hn
  intro c hc
  rw [h.read, if_neg (by omega)]

/-- A store inside memory answers a next state that differs in memory alone. -/
theorem State.finish_writeBytes_inside (s : State) (a : Nat) (bs : List Byte)
    (h : a + bs.length ≤ memSize) :
    ∃ m, finish (s.writeBytes a bs) = .next (s.setMem m) ∧ Memory.Overlay s.mem m a bs := by
  obtain ⟨m, hm, hread, hwf⟩ := s.writeBytes_inside a bs h
  exact ⟨m, by rw [hm]; rfl, hread, hwf⟩

/-! The answers of the range check, by the instruction that makes it (R76). -/

/-- The error of a range of `len` bytes at `I` that leaves memory (R303, D4). -/
def State.RangeError (s : State) (len : Nat) (e : OpError) : Prop :=
  e = .indexRegister s.i.toNat ∨ e = .indexRegister (s.i.toNat + (len - 1))

theorem State.withRange_error (s : State) {len : Nat} (k : Answer) (h : s.rangeInMem len = false) :
    ∃ e, s.RangeError len e ∧ s.withRange len k = .next (s.afterExecError e) := by
  refine ⟨_, ?_, s.withRange_outside k h⟩
  exact (idxErrorAddr_cases _ _).imp (congrArg _) (congrArg _)

theorem State.end_le_memSize {s : State} {len : Nat} (h : s.rangeInMem (len + 1) = true) :
    s.i.toNat + (len + 1) ≤ memSize := by
  have := (s.rangeInMem_iff (len + 1)).1 h
  unfold memSize
  omega

/-- The `len` bytes at `I`. -/
def State.bytesAtI (s : State) (len : Nat) : List Byte :=
  (List.range len).map fun k => s.byteAt (s.i.toNat + k)

@[simp] theorem State.bytesAtI_length (s : State) (len : Nat) : (s.bytesAtI len).length = len := by
  simp [State.bytesAtI]

theorem State.bytesAtI_getD (s : State) {len k : Nat} (h : k < len) :
    (s.bytesAtI len).getD k 0 = s.byteAt (s.i.toNat + k) := by
  simp [State.bytesAtI, List.getD, h]

theorem exec_ldB_inside (x : Reg) {s : State} (h : s.rangeInMem 3 = true) :
    ∃ m, exec (.ldB x) s = .next (s.setMem m) ∧
      Memory.Overlay s.mem m s.i.toNat (bcdDigits (s.readV x)) := by
  obtain ⟨m, hm, hover⟩ := s.finish_writeBytes_inside s.i.toNat (bcdDigits (s.readV x))
    (State.end_le_memSize h)
  exact ⟨m, (s.withRange_inside _ h).trans hm, hover⟩

theorem exec_ldB_outside (x : Reg) {s : State} (h : s.rangeInMem 3 = false) :
    ∃ e, s.RangeError 3 e ∧ exec (.ldB x) s = .next (s.afterExecError e) :=
  s.withRange_error _ h

theorem exec_storeRegs_inside (x : Reg) {s : State} (h : s.rangeInMem (regCount x) = true) :
    ∃ m, exec (.storeRegs x) s =
        .next ((s.setI (s.i + BitVec.ofNat 16 (regCount x))).setMem m) ∧
      Memory.Overlay s.mem m s.i.toNat (s.firstRegs (regCount x)) := by
  obtain ⟨m, hm, hover⟩ := (s.setI (s.i + BitVec.ofNat 16 (regCount x))).finish_writeBytes_inside
    s.i.toNat (s.firstRegs (regCount x)) (by
      rw [State.firstRegs_length]; exact State.end_le_memSize h)
  exact ⟨m, (s.withRange_inside _ h).trans hm, hover⟩

theorem exec_storeRegs_outside (x : Reg) {s : State} (h : s.rangeInMem (regCount x) = false) :
    ∃ e, s.RangeError (regCount x) e ∧ exec (.storeRegs x) s = .next (s.afterExecError e) :=
  s.withRange_error _ h

theorem exec_loadRegs_inside (x : Reg) {s : State} (h : s.rangeInMem (regCount x) = true) :
    exec (.loadRegs x) s = .next ((s.putRegs 0 (s.bytesAtI (regCount x))).setI
      (s.i + BitVec.ofNat 16 (regCount x))) :=
  (s.withRange_inside _ h).trans (s.withBytes_inside _ h)

theorem exec_loadRegs_outside (x : Reg) {s : State} (h : s.rangeInMem (regCount x) = false) :
    ∃ e, s.RangeError (regCount x) e ∧ exec (.loadRegs x) s = .next (s.afterExecError e) :=
  s.withRange_error _ h

theorem exec_drw_inside (x y : Reg) {n : Nibble} {s : State} (h : s.rangeInMem n.toNat = true) :
    exec (.drw x y n) s = .next (s.drawSprite x y (s.bytesAtI n.toNat)) :=
  (s.withRange_inside _ h).trans (s.withBytes_inside _ h)

theorem exec_drw_outside (x y : Reg) {n : Nibble} {s : State} (h : s.rangeInMem n.toNat = false) :
    ∃ e, s.RangeError n.toNat e ∧ exec (.drw x y n) s = .next (s.afterExecError e) :=
  s.withRange_error _ h

/-! Control transfer. -/

theorem exec_nop (s : State) : exec .nop s = .next s := rfl

theorem exec_jp (nnn : Addr12) (s : State) : exec (.jp nnn) s = .next (s.setPc (zext16 nnn)) := rfl

theorem exec_ret_cons {s : State} {a : Word} {rest : List Word} (h : s.stack = a :: rest) :
    exec .ret s = .next ((s.setStack rest).setPc a) := by
  simp only [exec, execRet, h]

theorem exec_ret_nil {s : State} (h : s.stack = []) :
    exec .ret s = .next (s.afterExecError .stackEmpty) := by
  simp only [exec, execRet, h, State.raise_eq]

theorem exec_call_room (nnn : Addr12) {s : State} (h : s.stack.length < 16) :
    exec (.call nnn) s = .next ((s.setStack (s.pc :: s.stack)).setPc (zext16 nnn)) :=
  if_neg (Nat.not_le.2 h)

theorem exec_call_full (nnn : Addr12) {s : State} (h : 16 ≤ s.stack.length) :
    exec (.call nnn) s = .next (s.afterExecError .stackOverflow) :=
  if_pos h

/-! Arithmetic with a flag. -/

theorem exec_addReg (x y : Reg) (s : State) : exec (.addReg x y) s =
    .next (s.writeWithFlag x (s.readV x + s.readV y) (carryFlag (s.readV x) (s.readV y))) := rfl

theorem exec_subReg (x y : Reg) (s : State) : exec (.subReg x y) s =
    .next (s.writeWithFlag x (s.readV x - s.readV y) (noBorrowFlag (s.readV x) (s.readV y))) := rfl

theorem exec_shrReg (x y : Reg) (s : State) : exec (.shrReg x y) s =
    .next (s.writeWithFlag x (s.readV y >>> 1) (lowBitFlag (s.readV y))) := rfl

theorem exec_subnReg (x y : Reg) (s : State) : exec (.subnReg x y) s =
    .next (s.writeWithFlag x (s.readV y - s.readV x) (noBorrowFlag (s.readV y) (s.readV x))) := rfl

theorem exec_shlReg (x y : Reg) (s : State) : exec (.shlReg x y) s =
    .next (s.writeWithFlag x (s.readV y <<< 1) (highBitFlag (s.readV y))) := rfl

/-! Index register, random byte and keys. -/

theorem exec_addI (x : Reg) (s : State) :
    exec (.addI x) s = .next (s.setI (s.i + byteToWord (s.readV x))) := rfl

theorem exec_ldF_accepted (x : Reg) {s : State} (h : digitRejected (s.readV x) = false) :
    exec (.ldF x) s = .next (s.setI (glyphAddr (s.readV x))) :=
  if_neg (by simp [h])

theorem exec_ldF_rejected (x : Reg) {s : State} (h : digitRejected (s.readV x) = true) :
    exec (.ldF x) s = .next (s.afterExecError (.undefinedOperand (encode (.ldF x)))) :=
  if_pos h

theorem exec_rnd (x : Reg) (nn : Byte) (s : State) :
    exec (.rnd x nn) s = .next ((s.writeV x (s.rand &&& nn)).countDraw) := rfl

theorem exec_skp_key (x : Reg) {s : State} (h : (s.readV x).toNat < 16) :
    exec (.skp x) s = .next (s.skipIf (s.keyDown ⟨_, h⟩)) := dif_pos h

theorem exec_sknp_key (x : Reg) {s : State} (h : (s.readV x).toNat < 16) :
    exec (.sknp x) s = .next (s.skipIf (!s.keyDown ⟨_, h⟩)) := dif_pos h

theorem exec_skp_no_key (x : Reg) {s : State} (h : 16 ≤ (s.readV x).toNat) :
    exec (.skp x) s = .next (s.afterExecError (.undefinedOperand (encode (.skp x)))) :=
  dif_neg (Nat.not_lt.2 h)

theorem exec_sknp_no_key (x : Reg) {s : State} (h : 16 ≤ (s.readV x).toNat) :
    exec (.sknp x) s = .next (s.afterExecError (.undefinedOperand (encode (.sknp x)))) :=
  dif_neg (Nat.not_lt.2 h)

end Sys2Proof.Machine
end

section
/-! PROOFS. What an instruction can do, said once: it completes within what the spec lists it as a writer of, or it raises its one kind of error. -/

namespace Sys2Proof.Machine

/-- The stack after an instruction: as it was, one entry more below the capacity, or one less. -/
def State.StackMoved (s t : State) : Prop :=
  t.stack = s.stack ∨ (s.stack.length < 16 ∧ t.stack = s.pc :: s.stack) ∨
    ∃ a, s.stack = a :: t.stack

/-- `pc` after an instruction: as the fetch left it, a skip on, the wait for a key, a 12-bit target,
or a return address. -/
def State.PcMoved (s t : State) : Prop :=
  t.pc = s.pc ∨ t.pc = s.pc + 2 ∨ t.pc = s.pc - 2 ∨ t.pc.toNat < 4096 ∨ t.pc ∈ s.stack

/-- From `s` instruction `i` ends in `t` without an error. The defaults are for a part
that is kept. -/
structure Completes (i : Instr) (s t : State) : Prop where
  frame : OnlyChanges (writesElement i ++ [.regs, .pc]) s t
  regs : ∀ r, writesReg i r = false → t.readV r = s.readV r := by exact fun _ _ => rfl
  memWf : Memory.wf s.mem = true → Memory.wf t.mem = true := by exact id
  stack : s.StackMoved t := by exact .inl rfl
  pc : s.PcMoved t := by exact .inl rfl

/-- From `s` instruction `i` raises an error the spec gives it and leaves `t`. -/
def Raises (i : Instr) (s t : State) : Prop := ∃ e, mayRaise i s e ∧ t = s.afterExecError e

/-! An instruction whose meaning is one shared update completes. -/

theorem Completes.of_setPc {i : Instr} {s : State} {a : Word} (h : s.PcMoved (s.setPc a)) :
    Completes i s (s.setPc a) where
  frame := (s.setPc_frame a).mono (by simp)
  pc := h

theorem Completes.of_skipIf {i : Instr} (s : State) (c : Bool) : Completes i s (s.skipIf c) := by
  rw [State.skipIf_eq]
  apply Completes.of_setPc
  cases c
  · exact .inl rfl
  · exact .inr (.inl rfl)

theorem Completes.of_writeV {i : Instr} (s : State) {x : Reg} (b : Byte)
    (h : ∀ r, writesReg i r = (r == x)) : Completes i s (s.writeV x b) where
  frame := (s.writeV_frame x b).2.mono (by simp)
  regs r hr := (s.writeV_frame x b).1 r (by simpa [h] using hr)

theorem Completes.of_writeWithFlag {i : Instr} (s : State) {x : Reg} (a b : Byte)
    (h : ∀ r, writesReg i r = (r == x || r == regVF)) : Completes i s (s.writeWithFlag x a b) := by
  obtain ⟨-, -, hregs, hframe⟩ := s.writeWithFlag_frame x a b
  exact {
    frame := hframe.mono (by simp)
    regs := fun r hr => hregs r (by simpa [h, regVF] using hr) }

theorem Completes.of_setI {i : Instr} (s : State) (a : Word) (h : .i ∈ writesElement i) :
    Completes i s (s.setI a) where
  frame := (s.setI_frame a).mono (by simp [h])

/-! The instructions that move more than one part. -/

theorem zext16_lt (nnn : Addr12) : (zext16 nnn).toNat < 4096 := by
  rw [zext16_toNat]
  exact nnn.isLt

theorem completes_ret {s : State} {a : Word} {rest : List Word} (h : s.stack = a :: rest) :
    Completes .ret s ((s.setStack rest).setPc a) where
  frame := (s.setStack_setPc_frame rest a).mono (by simp [writesElement])
  stack := .inr (.inr ⟨a, h⟩)
  pc := by simp [State.PcMoved, h]

theorem completes_call (nnn : Addr12) {s : State} (h : s.stack.length < 16) :
    Completes (.call nnn) s ((s.setStack (s.pc :: s.stack)).setPc (zext16 nnn)) where
  frame := (s.setStack_setPc_frame _ _).mono (by simp [writesElement])
  stack := .inr (.inl ⟨h, rfl⟩)
  pc := .inr (.inr (.inr (.inl (zext16_lt nnn))))

theorem completes_jp (nnn : Addr12) (s : State) : Completes (.jp nnn) s (s.setPc (zext16 nnn)) :=
  .of_setPc (.inr (.inr (.inr (.inl (zext16_lt nnn)))))

theorem completes_cls (s : State) :
    Completes .cls s ((s.setFb Framebuffer.blank).setDirty true) where
  frame := (s.setFb_setDirty_frame _ _).mono (by simp [writesElement])

theorem completes_drw (x y : Reg) (n : Nibble) (s : State) (bs : List Byte) :
    Completes (.drw x y n) s (s.drawSprite x y bs) := by
  obtain ⟨-, hregs, hframe⟩ := s.drawSprite_frame x y bs
  exact {
    frame := hframe.mono (by simp [writesElement])
    regs := fun r hr => hregs r (by simpa [writesReg, regVF] using hr) }

theorem completes_rnd (x : Reg) (nn : Byte) (s : State) (b : Byte) :
    Completes (.rnd x nn) s (s.writeV x b).countDraw where
  frame := ((s.writeV_frame x b).2.trans (State.countDraw_frame _)).mono (by simp [writesElement])
  regs r hr := (s.writeV_frame x b).1 r (by simpa [writesReg] using hr)

theorem completes_ldDtVx (x : Reg) (s : State) (b : Byte) :
    Completes (.ldDtVx x) s (s.setDt b) where
  frame := (s.setDt_frame b).mono (by simp [writesElement])

theorem completes_ldStVx (x : Reg) (s : State) (b : Byte) :
    Completes (.ldStVx x) s (s.setSt b) where
  frame := (s.setSt_frame b).mono (by simp [writesElement])

theorem completes_ldB (x : Reg) {s : State} {m : Memory}
    (h : Memory.wf s.mem = true → Memory.wf m = true) : Completes (.ldB x) s (s.setMem m) where
  frame := (s.setMem_frame m).mono (by simp [writesElement])
  memWf := h

theorem completes_storeRegs (x : Reg) {s : State} {m : Memory} (a : Word)
    (h : Memory.wf s.mem = true → Memory.wf m = true) :
    Completes (.storeRegs x) s ((s.setI a).setMem m) where
  frame := ((s.setI_frame a).trans (State.setMem_frame _ m)).mono (by simp [writesElement])
  memWf := h

/-- The registers loaded are `V0` to `Vx`. -/
theorem State.readV_loaded (s : State) (x r : Reg) :
    (s.putRegs 0 (s.bytesAtI (regCount x))).readV r =
      if r.toNat ≤ x.toNat then s.byteAt (s.i.toNat + r.toNat) else s.readV r := by
  have hcount := regCount_le x
  rw [State.readV_putRegs _ _ _ (by rw [State.bytesAtI_length]; omega), State.bytesAtI_length]
  unfold regCount
  by_cases h : r.toNat ≤ x.toNat
  · rw [if_pos (by omega), if_pos h, Nat.sub_zero, State.bytesAtI_getD _ (by omega)]
  · rw [if_neg (by omega), if_neg h]

theorem completes_loadRegs (x : Reg) (s : State) (a : Word) :
    Completes (.loadRegs x) s ((s.putRegs 0 (s.bytesAtI (regCount x))).setI a) := by
  obtain ⟨w, hw⟩ := s.putRegs_only_regs 0 (s.bytesAtI (regCount x))
  exact {
    frame := ((s.putRegs_frame 0 _).trans (State.setI_frame _ a)).mono (by simp [writesElement])
    regs := fun r hr => by
      rw [State.readV_setI, State.readV_loaded, if_neg (by simpa [writesReg] using hr)]
    memWf := by rw [hw]; exact id
    stack := by rw [hw]; exact .inl rfl
    pc := by rw [hw]; exact .inl rfl }

/-! The inversion. -/

/-- Every instruction answers a next state, in which it has completed or raised its error. -/
theorem exec_cases (i : Instr) (s : State) :
    ∃ t, exec i s = .next t ∧ (Completes i s t ∨ Raises i s t) := by
  cases i with
  | nop => exact ⟨_, exec_nop s, .inl (Completes.of_setPc (.inl rfl))⟩
  | cls => exact ⟨_, exec_cls s, .inl (completes_cls s)⟩
  | ret =>
    cases h : s.stack with
    | nil => exact ⟨_, exec_ret_nil h, .inr ⟨_, rfl, rfl⟩⟩
    | cons a rest => exact ⟨_, exec_ret_cons h, .inl (completes_ret h)⟩
  | jp nnn => exact ⟨_, exec_jp nnn s, .inl (completes_jp nnn s)⟩
  | call nnn =>
    by_cases h : s.stack.length < 16
    · exact ⟨_, exec_call_room nnn h, .inl (completes_call nnn h)⟩
    · exact ⟨_, exec_call_full nnn (Nat.not_lt.1 h), .inr ⟨_, rfl, rfl⟩⟩
  | seImm x nn => exact ⟨_, exec_seImm x nn s, .inl (.of_skipIf s _)⟩
  | sneImm x nn => exact ⟨_, exec_sneImm x nn s, .inl (.of_skipIf s _)⟩
  | seReg x y => exact ⟨_, exec_seReg x y s, .inl (.of_skipIf s _)⟩
  | sneReg x y => exact ⟨_, exec_sneReg x y s, .inl (.of_skipIf s _)⟩
  | ldImm x nn => exact ⟨_, exec_ldImm x nn s, .inl (.of_writeV s _ fun _ => rfl)⟩
  | addImm x nn => exact ⟨_, exec_addImm x nn s, .inl (.of_writeV s _ fun _ => rfl)⟩
  | ldReg x y => exact ⟨_, exec_ldReg x y s, .inl (.of_writeV s _ fun _ => rfl)⟩
  | orReg x y => exact ⟨_, exec_orReg x y s, .inl (.of_writeV s _ fun _ => rfl)⟩
  | andReg x y => exact ⟨_, exec_andReg x y s, .inl (.of_writeV s _ fun _ => rfl)⟩
  | xorReg x y => exact ⟨_, exec_xorReg x y s, .inl (.of_writeV s _ fun _ => rfl)⟩
  | addReg x y => exact ⟨_, exec_addReg x y s, .inl (.of_writeWithFlag s _ _ fun _ => rfl)⟩
  | subReg x y => exact ⟨_, exec_subReg x y s, .inl (.of_writeWithFlag s _ _ fun _ => rfl)⟩
  | shrReg x y => exact ⟨_, exec_shrReg x y s, .inl (.of_writeWithFlag s _ _ fun _ => rfl)⟩
  | subnReg x y => exact ⟨_, exec_subnReg x y s, .inl (.of_writeWithFlag s _ _ fun _ => rfl)⟩
  | shlReg x y => exact ⟨_, exec_shlReg x y s, .inl (.of_writeWithFlag s _ _ fun _ => rfl)⟩
  | ldI nnn => exact ⟨_, exec_ldI nnn s, .inl (.of_setI s _ (by simp [writesElement]))⟩
  | ldiV0 nnn => exact ⟨_, exec_ldiV0 nnn s, .inl (.of_setI s _ (by simp [writesElement]))⟩
  | addI x => exact ⟨_, exec_addI x s, .inl (.of_setI s _ (by simp [writesElement]))⟩
  | rnd x nn => exact ⟨_, exec_rnd x nn s, .inl (completes_rnd x nn s _)⟩
  | drw x y n =>
    cases h : s.rangeInMem n.toNat with
    | true => exact ⟨_, exec_drw_inside x y h, .inl (completes_drw x y n s _)⟩
    | false =>
      obtain ⟨e, he, hexec⟩ := exec_drw_outside x y h
      exact ⟨_, hexec, .inr ⟨e, he, rfl⟩⟩
  | skp x =>
    by_cases h : (s.readV x).toNat < 16
    · exact ⟨_, exec_skp_key x h, .inl (.of_skipIf s _)⟩
    · exact ⟨_, exec_skp_no_key x (Nat.not_lt.1 h), .inr ⟨_, rfl, rfl⟩⟩
  | sknp x =>
    by_cases h : (s.readV x).toNat < 16
    · exact ⟨_, exec_sknp_key x h, .inl (.of_skipIf s _)⟩
    · exact ⟨_, exec_sknp_no_key x (Nat.not_lt.1 h), .inr ⟨_, rfl, rfl⟩⟩
  | ldVxDt x => exact ⟨_, exec_ldVxDt x s, .inl (.of_writeV s _ fun _ => rfl)⟩
  | ldVxK x =>
    cases h : s.lowestKey with
    | none => exact ⟨_, exec_ldVxK_of_none x h, .inl (.of_setPc (.inr (.inr (.inl rfl))))⟩
    | some k => exact ⟨_, exec_ldVxK_of_some x h, .inl (.of_writeV s _ fun _ => rfl)⟩
  | ldDtVx x => exact ⟨_, exec_ldDtVx x s, .inl (completes_ldDtVx x s _)⟩
  | ldStVx x => exact ⟨_, exec_ldStVx x s, .inl (completes_ldStVx x s _)⟩
  | ldF x =>
    cases h : digitRejected (s.readV x) with
    | true => exact ⟨_, exec_ldF_rejected x h, .inr ⟨_, rfl, rfl⟩⟩
    | false => exact ⟨_, exec_ldF_accepted x h, .inl (.of_setI s _ (by simp [writesElement]))⟩
  | ldB x =>
    cases h : s.rangeInMem 3 with
    | true =>
      obtain ⟨m, hexec, hover⟩ := exec_ldB_inside x h
      exact ⟨_, hexec, .inl (completes_ldB x hover.wf)⟩
    | false =>
      obtain ⟨e, he, hexec⟩ := exec_ldB_outside x h
      exact ⟨_, hexec, .inr ⟨e, he, rfl⟩⟩
  | storeRegs x =>
    cases h : s.rangeInMem (regCount x) with
    | true =>
      obtain ⟨m, hexec, hover⟩ := exec_storeRegs_inside x h
      exact ⟨_, hexec, .inl (completes_storeRegs x _ hover.wf)⟩
    | false =>
      obtain ⟨e, he, hexec⟩ := exec_storeRegs_outside x h
      exact ⟨_, hexec, .inr ⟨e, he, rfl⟩⟩
  | loadRegs x =>
    cases h : s.rangeInMem (regCount x) with
    | true => exact ⟨_, exec_loadRegs_inside x h, .inl (completes_loadRegs x s _)⟩
    | false =>
      obtain ⟨e, he, hexec⟩ := exec_loadRegs_outside x h
      exact ⟨_, hexec, .inr ⟨e, he, rfl⟩⟩

end Sys2Proof.Machine
end

section
/-! PROOFS. What holds of every instruction (spec/60_exceptions.md section 1, spec/10_state.md sections 2 and 6), each read off the one inversion `exec_cases`. -/

namespace Sys2Proof.Machine

theorem cases_of_exec {i : Instr} {s t : State} (h : exec i s = .next t) :
    Completes i s t ∨ Raises i s t := by
  obtain ⟨u, hu, hcases⟩ := exec_cases i s
  cases hu.symm.trans h
  exact hcases

/-- The model's own fields for what a call returns are no instruction's to write. -/
theorem result_not_mem_writesElement (i : Instr) :
    .result ∉ writesElement i ++ [.regs, .pc] ∧ .errorSeen ∉ writesElement i ++ [.regs, .pc] := by
  cases i <;> simp [writesElement]

theorem Completes.result {i : Instr} {s t : State} (h : Completes i s t) : t.result = s.result :=
  h.frame .result (result_not_mem_writesElement i).1

theorem Completes.errorSeen {i : Instr} {s t : State} (h : Completes i s t) :
    t.errorSeen = s.errorSeen :=
  h.frame .errorSeen (result_not_mem_writesElement i).2

theorem Raises.leavesError {i : Instr} {s t : State} (h : Raises i s t) :
    ∃ e, mayRaise i s e ∧ LeavesError e s t := by
  obtain ⟨e, he, rfl⟩ := h
  exact ⟨e, he, s.afterExecError_leaves e⟩

/-! The obligations. -/

/-- Settles O11: a completed instruction returns what the fetch set, so the error is a raised one. -/
theorem errorChangesNothingElse : Obligations.ErrorChangesNothingElse := by
  intro i s t e hok hexec herror
  rcases cases_of_exec hexec with hdone | ⟨e', -, rfl⟩
  · rw [hdone.result, hok] at herror
    cases herror
  · cases herror
    exact s.afterExecError_leaves e

/-- Settles O12: the inversion names the error of a raising instruction. -/
theorem instructionRaisesOnlyItsOwnError : Obligations.InstructionRaisesOnlyItsOwnError := by
  intro i s t hok hexec
  rcases cases_of_exec hexec with hdone | ⟨e, he, rfl⟩
  · exact .inl (hdone.result.trans hok)
  · exact .inr ⟨e, rfl, he⟩

/-- Settles O56: a completed instruction stays within its elements, and a raised error writes `pc`
and what the call returns alone. -/
theorem onlyListedInstructionsWrite : Obligations.OnlyListedInstructionsWrite := by
  intro i s t hexec
  rcases cases_of_exec hexec with hdone | hraised
  · exact hdone.frame.mono (by simp +contextual [or_imp])
  · obtain ⟨e, -, -, -, -, hframe⟩ := hraised.leavesError
    exact hframe.mono (by simp)

/-- Settles O57: a completed instruction keeps the registers that are not its own, and a raised error
keeps them all. -/
theorem onlyListedRegistersAreWritten : Obligations.OnlyListedRegistersAreWritten := by
  intro i s t r hexec hr
  rcases cases_of_exec hexec with hdone | hraised
  · exact hdone.regs r hr
  · obtain ⟨e, -, -, -, -, hframe⟩ := hraised.leavesError
    exact hframe .regs (by simp) r

end Sys2Proof.Machine
end

section
/-! PROOFS. One step (spec/30_encoding.md R101 to R110, spec/60_exceptions.md R335): how a cycle ends, that every call answers, the sticky mark and the invariants of the state. -/

namespace Sys2Proof.Machine

/-- How a cycle from `s` ends: without a fetch, in a completed instruction, or in a raised error. -/
inductive State.CycleEnds (s : State) : State → Prop
  | pastMemory : State.CycleEnds s s.fetchError
  | completed {i : Instr} {t : State} (hin : s.pc.toNat + 1 < 4096)
      (hdone : Completes i s.fetched t) : State.CycleEnds s t
  | raised (hin : s.pc.toNat + 1 < 4096) (e : OpError) :
      State.CycleEnds s (s.fetched.afterExecError e)

theorem State.cycle_answers (s : State) : ∃ t, s.cycle = .next t ∧ s.CycleEnds t := by
  rcases s.cycle_cases with ⟨-, hcycle⟩ | ⟨hin, ⟨i, hcycle⟩ | ⟨w, hcycle⟩⟩
  · exact ⟨_, hcycle, .pastMemory⟩
  · obtain ⟨t, hexec, hdone | ⟨e, -, rfl⟩⟩ := exec_cases i s.fetched
    · exact ⟨t, hcycle.trans hexec, .completed hin hdone⟩
    · exact ⟨_, hcycle.trans hexec, .raised hin e⟩
  · exact ⟨_, hcycle, .raised hin _⟩

/-- How a driver call ends; every call but a load and a cycle is one update of the state. -/
inductive State.CallEnds (s : State) : State → Prop
  | reset : State.CallEnds s s.resetCall
  | tooLong : State.CallEnds s (s.fail .size)
  | loaded (m : Memory) (hwf : Memory.wf s.mem = true → Memory.wf m = true) :
      State.CallEnds s ((s.setResult .ok).setMem m)
  | cycle {t : State} (h : s.CycleEnds t) : State.CallEnds s t
  | tick : State.CallEnds s s.tickTimers
  | key (k : Vector Bool 16) : State.CallEnds s ((s.setKeys k).setResult .ok)
  | noKey : State.CallEnds s (s.fail .keyIndex)
  | framebuffer : State.CallEnds s s.readFramebuffer
  | queryDirty : State.CallEnds s s.readDirty
  | clearDirty : State.CallEnds s s.clearDirty

theorem State.setKey_inside (s : State) {index : Nat} (pressed : Bool) (h : index < 16) :
    s.setKey index pressed = (s.setKeys (s.keys.set index pressed)).setResult .ok := dif_pos h

theorem State.setKey_outside (s : State) {index : Nat} (pressed : Bool) (h : 16 ≤ index) :
    s.setKey index pressed = s.fail .keyIndex := dif_neg (Nat.not_lt.2 h)

theorem State.perform_answers (s : State) (d : DriverCall) :
    ∃ t, s.perform d = .next t ∧ s.CallEnds t := by
  cases d with
  | reset => exact ⟨_, rfl, .reset⟩
  | load bytes =>
    rcases s.loadCall_cases bytes with ⟨-, hload⟩ | ⟨-, m, hload, -, hwf⟩
    · exact ⟨_, hload, .tooLong⟩
    · exact ⟨_, hload, .loaded m hwf⟩
  | cycle =>
    obtain ⟨t, hcycle, hends⟩ := s.cycle_answers
    exact ⟨t, hcycle, .cycle hends⟩
  | tickTimers => exact ⟨_, rfl, .tick⟩
  | setKey index pressed =>
    by_cases h : index < 16
    · exact ⟨_, congrArg _ (s.setKey_inside pressed h), .key _⟩
    · exact ⟨_, congrArg _ (s.setKey_outside pressed (Nat.not_lt.1 h)), .noKey⟩
  | framebuffer => exact ⟨_, rfl, .framebuffer⟩
  | queryDirty => exact ⟨_, rfl, .queryDirty⟩
  | clearDirty => exact ⟨_, rfl, .clearDirty⟩

/-- Every step answers: it takes the next call off the list and runs it to its end. -/
theorem step_answers (s : State) : ∃ t, step s = .next t ∧ ∃ l, (s.setCalls l).CallEnds t := by
  obtain ⟨l, hl⟩ := s.nextCall_eq
  obtain ⟨t, ht, hends⟩ := s.nextCall.2.perform_answers s.nextCall.1
  exact ⟨t, ht, l, hl ▸ hends⟩

theorem callEnds_of_step {s t : State} (h : step s = .next t) : ∃ l, (s.setCalls l).CallEnds t := by
  obtain ⟨u, hu, hends⟩ := step_answers s
  cases hu.symm.trans h
  exact hends

/-! The sticky mark (D22). -/

/-- The mark is kept from `s` to `t`, and set in `t` if the call returned an error. -/
def State.MarkKept (s t : State) : Prop :=
  (s.errorSeen = true → t.errorSeen = true) ∧ ∀ e, t.result = .error e → t.errorSeen = true

theorem State.MarkKept.of_marked {s t : State} (h : t.errorSeen = true) : s.MarkKept t :=
  ⟨fun _ => h, fun _ _ => h⟩

theorem State.MarkKept.of_no_error {s t : State} (hmark : t.errorSeen = s.errorSeen)
    (hresult : ∀ e, t.result ≠ .error e) : s.MarkKept t :=
  ⟨fun h => hmark.trans h, fun e he => absurd he (hresult e)⟩

theorem State.CycleEnds.markKept {s t : State} (h : s.CycleEnds t) : s.MarkKept t := by
  cases h with
  | pastMemory => exact .of_marked rfl
  | completed _ hdone => exact .of_no_error hdone.errorSeen fun e => by rw [hdone.result]; nofun
  | raised => exact .of_marked rfl

theorem State.CallEnds.markKept {s t : State} (h : s.CallEnds t) : s.MarkKept t := by
  cases h with
  | tooLong => exact .of_marked rfl
  | noKey => exact .of_marked rfl
  | cycle h => exact h.markKept
  | reset | loaded | tick | key | framebuffer | queryDirty | clearDirty =>
    exact .of_no_error rfl nofun

/-! The canonical memory and the bounded stack (R42, log 29). -/

theorem State.StackMoved.length_le {s t : State} (h : s.StackMoved t) (hs : s.stack.length ≤ 16) :
    t.stack.length ≤ 16 := by
  rcases h with hsame | ⟨hroom, hpush⟩ | ⟨a, hpop⟩
  · rwa [hsame]
  · rw [hpush, List.length_cons]
    omega
  · rw [hpop, List.length_cons] at hs
    omega

theorem State.CycleEnds.structureInv {s t : State} (h : s.CycleEnds t) (hs : StructureInv s) :
    StructureInv t := by
  cases h with
  | completed _ hdone => exact ⟨hdone.memWf hs.1, hdone.stack.length_le hs.2⟩
  | pastMemory => exact hs
  | raised => exact hs

theorem structureInv_reset : StructureInv State.reset := ⟨Memory.reset_wf, by decide⟩

theorem State.CallEnds.structureInv {s t : State} (h : s.CallEnds t) (hs : StructureInv s) :
    StructureInv t := by
  cases h with
  | reset => exact structureInv_reset
  | loaded m hwf => exact ⟨hwf hs.1, hs.2⟩
  | cycle h => exact h.structureInv hs
  | tooLong | tick | key | noKey | framebuffer | queryDirty | clearDirty => exact hs

/-! The range of `pc` (R37). After a fetch inside memory `pc` is at least 2 and at most `0x1000`, so
neither a skip nor a step back leaves the range. -/

theorem toNat_add_two {a : Word} (h : a.toNat + 2 < 2 ^ 16) : (a + 2).toNat = a.toNat + 2 :=
  BitVec.toNat_add_of_lt (y := 2#16) h

theorem toNat_sub_two {a : Word} (h : 2 ≤ a.toNat) : (a - 2).toNat = a.toNat - 2 :=
  BitVec.toNat_sub_of_le (show (2 : Word).toNat ≤ a.toNat from h)

theorem State.fetched_pc_toNat {s : State} (h : s.pc.toNat + 1 < 4096) :
    s.fetched.pc.toNat = s.pc.toNat + 2 :=
  toNat_add_two (by omega)

theorem pcInv_of_completes {i : Instr} {s t : State} (h : Completes i s t) (hlow : 2 ≤ s.pc.toNat)
    (hhigh : s.pc.toNat ≤ 0x1000) (hstack : ∀ a ∈ s.stack, a.toNat ≤ 0x1000) : PcInv t := by
  constructor
  · rcases h.pc with hkept | hskip | hwait | htarget | hreturn
    · rw [hkept]
      omega
    · rw [hskip, toNat_add_two (by omega)]
      omega
    · rw [hwait, toNat_sub_two hlow]
      omega
    · omega
    · have := hstack _ hreturn
      omega
  · rcases h.stack with hsame | ⟨-, hpush⟩ | ⟨a, hpop⟩
    · rwa [hsame]
    · rw [hpush]
      exact List.forall_mem_cons.2 ⟨hhigh, hstack⟩
    · rw [hpop] at hstack
      exact (List.forall_mem_cons.1 hstack).2

theorem State.CycleEnds.pcInv {s t : State} (h : s.CycleEnds t) (hs : PcInv s) : PcInv t := by
  obtain ⟨hpc, hstack⟩ := hs
  cases h with
  | pastMemory => exact ⟨hpc, hstack⟩
  | completed hin hdone =>
    have hfetched := s.fetched_pc_toNat hin
    exact pcInv_of_completes hdone (by omega) (by omega) hstack
  | raised hin e =>
    have hfetched := s.fetched_pc_toNat hin
    refine ⟨?_, hstack⟩
    show (pcAfterError s.fetched.pc).toNat ≤ 0x1002
    rcases pcAfterError_cases s.fetched.pc with hadvanced | hrestored
    · rw [hadvanced]
      omega
    · rw [hrestored, toNat_sub_two (by omega)]
      omega

theorem pcInv_reset : PcInv State.reset := ⟨by decide, nofun⟩

theorem State.CallEnds.pcInv {s t : State} (h : s.CallEnds t) (hs : PcInv s) : PcInv t := by
  cases h with
  | reset => exact pcInv_reset
  | cycle h => exact h.pcInv hs
  | tooLong | loaded | tick | key | noKey | framebuffer | queryDirty | clearDirty => exact hs

/-! The obligations. -/

/-- Settles O15: however the call ends, it keeps the canonical memory and the bounded stack. -/
theorem stepKeepsStructure : Obligations.StepKeepsStructure := by
  intro s t hs hstep
  obtain ⟨l, hends⟩ := callEnds_of_step hstep
  exact hends.structureInv hs

/-- Settles O16: however the call ends, it keeps `pc` and the return addresses in their ranges. -/
theorem stepKeepsPcInRange : Obligations.StepKeepsPcInRange := by
  intro s t hs hstep
  obtain ⟨l, hends⟩ := callEnds_of_step hstep
  exact hends.pcInv hs

/-- Settles O10: every driver call answers, a cycle because every instruction does. -/
theorem everyStepAnswersANextState : Obligations.EveryStepAnswersANextState := by
  intro s
  exact (step_answers s).imp fun _ h => h.1

/-- Settles O13: however the call ends, it keeps the mark and sets it on an error. -/
theorem errorMarkIsSticky : Obligations.ErrorMarkIsSticky := by
  intro s t hstep
  obtain ⟨l, hends⟩ := callEnds_of_step hstep
  exact hends.markKept

/-- Settles O14: the reset memory lists nothing and the stack is empty. -/
theorem resetMeetsTheInvariants : Obligations.ResetMeetsTheInvariants :=
  ⟨structureInv_reset, pcInv_reset⟩

end Sys2Proof.Machine
end

section
/-! PROOFS. The cycle (spec/30_encoding.md R101 to R110): the decoded instruction, the two errors before any instruction runs, and the words that leave the state as it was. -/

namespace Sys2Proof.Machine

/-- A `cycle()` on a legal word inside memory is the decoded instruction after the fetch. -/
theorem step_of_decoded {s c : State} {i : Instr} (hcall : s.nextCall = (.cycle, c))
    (hin : c.pc.toNat + 1 < 4096) (hdecode : decode c.wordAtPc = .instr i) :
    step s = exec i c.fetched := by
  rw [step_of_cycle hcall, c.cycle_inside hin, hdecode]
  rfl

theorem State.nextCall_of_none {s : State} (h : s.calls = []) : s.nextCall = (.cycle, s) := by
  simp only [State.nextCall, h]

theorem State.nextCall_of_listed {s : State} {d : DriverCall} {rest : List DriverCall}
    (h : s.calls = d :: rest) : s.nextCall = (d, s.setCalls rest) := by
  simp only [State.nextCall, h]

/-- A step back to the instruction just fetched leaves the state as it was but for the result. -/
theorem State.fetched_setPc_back (s : State) {a : Word} (h : a = s.pc) :
    s.fetched.setPc a = s.setResult .ok := by
  subst h
  rfl

theorem zext16_eq_of_toNat {nnn : Addr12} {a : Word} (h : nnn.toNat = a.toNat) : zext16 nnn = a :=
  BitVec.eq_of_toNat_eq ((zext16_toNat nnn).trans h)

/-- A `cycle()` on a jump to its own address changes the returned value alone. -/
theorem step_of_selfJump {s c : State} {nnn : Addr12} (hcall : s.nextCall = (.cycle, c))
    (hin : c.pc.toNat + 1 < 4096) (hdecode : decode c.wordAtPc = .instr (.jp nnn))
    (hself : nnn.toNat = c.pc.toNat) : step s = .next (c.setResult .ok) := by
  rw [step_of_decoded hcall hin hdecode, exec_jp,
    c.fetched_setPc_back (zext16_eq_of_toNat hself)]

theorem Memory.unlisted_above_font {a : Nat} (h : 80 ≤ a) : Memory.unlisted a = 0 :=
  List.getD_eq_default _ _ h

/-! The obligations. -/

/-- Settles O7: the fetch reads the word at `pc` and the decoder's answer is executed. -/
theorem stepRunsTheDecodedInstruction : Obligations.StepRunsTheDecodedInstruction := by
  intro s i hin hdecode
  refine ⟨fun hnone => ?_, fun rest hlisted => ?_, rfl, rfl, s.fetched_frame⟩
  · exact step_of_decoded (State.nextCall_of_none hnone) hin hdecode
  · exact step_of_decoded (State.nextCall_of_listed hlisted) hin hdecode

/-- Settles O8: the bounds check fails and nothing is read. -/
theorem fetchPastMemoryIsAnError : Obligations.FetchPastMemoryIsAnError := by
  intro s c hcall hpast
  have hstep : step s = .next c.fetchError := by
    rw [step_of_cycle hcall, c.cycle_outside (by omega)]
  exact ⟨_, _, hstep, pcErrorAddr_cases c.pc, rfl, c.fail_frame _⟩

/-- Settles O9: the decoder names the word itself and dispatch raises it. -/
theorem illegalWordIsAnError : Obligations.IllegalWordIsAnError := by
  intro s c w hcall hin hdecode
  have hstep : step s = .next (c.fetched.afterExecError (.opcode w)) := by
    rw [step_of_cycle hcall, c.cycle_inside hin, hdecode]
    rfl
  exact ⟨illegal_payload hdecode, _, hstep, c.fetched.afterExecError_leaves _⟩

/-- Settles O18: `NOP` leaves the state of the fetch, and an unlisted byte above the font reads 0. -/
theorem nopOnlyMovesPc : Obligations.NopOnlyMovesPc := by
  have hdecode : decode 0x0000 = .instr .nop := decode_encode .nop
  refine ⟨hdecode, fun s => ⟨s, exec_nop s, onlyChanges_refl s⟩, ?_, fun a ha => ?_⟩
  · intro s c hcall hin hword
    have hstep := step_of_decoded hcall hin (hword ▸ hdecode)
    exact ⟨c.fetched, hstep.trans (exec_nop _), rfl, rfl, c.fetched_frame⟩
  · exact Memory.unlisted_above_font ha

/-- Settles O19: the meaning is one write of `pc`, and the target of a jump to itself is the address
it was fetched from. -/
theorem jumpSetsPc : Obligations.JumpSetsPc := by
  refine ⟨fun nnn => decode_encode (.jp nnn), fun nnn s => ?_,
    fun nnn s c hcall hin hdecode hself => ?_⟩
  · exact ⟨_, exec_jp nnn s, zext16_toNat nnn, s.setPc_frame _⟩
  · exact ⟨_, step_of_selfJump hcall hin hdecode hself, rfl, c.setResult_frame _⟩

/-- Settles O48: the wait takes back the 2 the fetch added to `pc`. -/
theorem waitForKeyRepeats : Obligations.WaitForKeyRepeats := by
  intro x s c hcall hin hdecode hnone
  have hback : c.fetched.pc - 2 = c.pc := BitVec.add_sub_cancel c.pc 2
  have hstep : step s = .next (c.setResult .ok) := by
    rw [step_of_decoded hcall hin hdecode, exec_ldVxK_of_none x (c.fetched.lowestKey_none hnone),
      c.fetched_setPc_back hback]
  exact ⟨_, hstep, rfl, c.setResult_frame _⟩

/-! Runs and the jump to itself (R340, D28). -/

theorem State.runUntil_answers (endOfRun : State → Bool) (k : Nat) (s : State) :
    ∃ t, s.runUntil endOfRun k = .next t := by
  induction k generalizing s with
  | zero => exact ⟨s, rfl⟩
  | succ k ih =>
    cases h : endOfRun s with
    | true => exact ⟨s, State.runUntil_end k h⟩
    | false =>
      obtain ⟨t, ht, -⟩ := step_answers s
      rw [State.runUntil_step k h ht]
      exact ih t

theorem State.runUntil_at_end {endOfRun : State → Bool} (k : Nat) {s : State}
    (h : endOfRun s = true) : s.runUntil endOfRun k = .next s := by
  cases k with
  | zero => rfl
  | succ k => exact State.runUntil_end k h

/-- Inside memory `pc` is its low 12 bits. -/
theorem toNat_setWidth_pc {s : State} (h : s.pc.toNat + 1 < 4096) :
    (s.pc.setWidth 12).toNat = s.pc.toNat := by
  rw [BitVec.toNat_setWidth, Nat.mod_eq_of_lt (by omega)]

theorem State.atSelfJump_iff (s : State) : s.atSelfJump = true ↔
    s.pc.toNat + 1 < 4096 ∧ ∃ nnn : Addr12, decode s.wordAtPc = .instr (.jp nnn) ∧
      nnn.toNat = s.pc.toNat := by
  unfold State.atSelfJump State.fetchInMem memSize
  simp only [Bool.and_eq_true, decide_eq_true_eq, beq_iff_eq, decode_eq_instr_iff]
  refine and_congr_right fun hin => ⟨fun hword => ?_, ?_⟩
  · exact ⟨_, hword.symm, toNat_setWidth_pc hin⟩
  · rintro ⟨nnn, hword, hself⟩
    have htarget : nnn = s.pc.setWidth 12 :=
      BitVec.eq_of_toNat_eq (hself.trans (toNat_setWidth_pc hin).symm)
    rw [← hword, htarget]

/-- Settles O60: by induction on the bound, since every step answers; the predicate is read through
the encoder, and the step at a jump to itself changes the returned value alone. -/
theorem endOfRunIsAParameter : Obligations.EndOfRunIsAParameter := by
  refine ⟨fun endOfRun k s => ⟨State.runUntil_answers endOfRun k s, State.runUntil_at_end k⟩,
    State.atSelfJump_iff, fun s c hcall hself => ?_⟩
  obtain ⟨hin, nnn, hdecode, htarget⟩ := c.atSelfJump_iff.1 hself
  exact ⟨_, step_of_selfJump hcall hin hdecode htarget, hself, c.setResult_frame _⟩

end Sys2Proof.Machine
end

section
/-! PROOFS. Subroutines (spec/40_control.md sections 2 and 3). -/

namespace Sys2Proof.Machine

/-- Settles O20: below the capacity the meaning is one push and one write of `pc`. -/
theorem callPushesAndJumps : Obligations.CallPushesAndJumps := by
  intro nnn s
  refine ⟨fun hroom => ?_, fun hfull => ?_⟩
  · exact ⟨_, exec_call_room nnn hroom, zext16_toNat nnn, rfl, s.setStack_setPc_frame _ _⟩
  · exact ⟨_, exec_call_full nnn hfull, s.afterExecError_leaves _⟩

/-- Settles O21: with an entry the meaning is one pop and one write of `pc`. -/
theorem returnPopsPc : Obligations.ReturnPopsPc := by
  intro s
  refine ⟨fun a rest hcons => ?_, fun hnil => ?_⟩
  · exact ⟨_, exec_ret_cons hcons, rfl, rfl, s.setStack_setPc_frame _ _⟩
  · exact ⟨_, exec_ret_nil hnil, s.afterExecError_leaves _⟩

/-- Settles O22: the entry the return pops is the one the call pushed. -/
theorem returnUndoesCall : Obligations.ReturnUndoesCall := by
  intro nnn s t u hroom hcall hstack
  rw [exec_call_room nnn hroom] at hcall
  cases hcall
  exact ⟨_, exec_ret_cons hstack, rfl, rfl⟩

end Sys2Proof.Machine
end

section
/-! PROOFS. Arithmetic with a flag (spec/41_alu.md R176 to R180): the flags as numbers, and what a result with its flag answers. -/

namespace Sys2Proof.Machine

/-- An instruction whose meaning is a result with its flag: the flag is what `VF` holds, and the
result stands in any other destination. -/
theorem exec_answers_of_writeWithFlag {i : Instr} {s : State} {x : Reg} {a b : Byte}
    (h : exec i s = .next (s.writeWithFlag x a b)) :
    ∃ t, exec i s = .next t ∧ (x ≠ 0xF → t.readV x = a) ∧ t.readV 0xF = b ∧
      RegsSameBut [x, 0xF] s t ∧ OnlyChanges [.regs] s t := by
  obtain ⟨hflag, hvalue, hregs, hframe⟩ := s.writeWithFlag_frame x a b
  exact ⟨_, h, hvalue, hflag, hregs, hframe⟩

theorem carryFlag_eq (a b : Byte) : carryFlag a b = if 255 < a.toNat + b.toNat then 1 else 0 := by
  simp only [carryFlag, flagByte, decide_eq_true_eq]

theorem noBorrowFlag_eq (a b : Byte) : noBorrowFlag a b = if a.toNat < b.toNat then 0 else 1 := by
  simp only [noBorrowFlag, flagByte, decide_eq_true_eq, ← Nat.not_lt, ite_not]

theorem lowBitFlag_toNat (b : Byte) : (lowBitFlag b).toNat = b.toNat % 2 := by
  rw [lowBitFlag, BitVec.toNat_and]
  exact Nat.and_one_is_mod b.toNat

theorem highBitFlag_toNat (b : Byte) : (highBitFlag b).toNat = b.toNat / 128 := by
  revert b
  decide

theorem toNat_sub_mod (a b : Byte) : (a - b).toNat = (a.toNat + 256 - b.toNat) % 256 := by
  rw [BitVec.toNat_sub]
  omega

theorem toNat_shiftRight_one (b : Byte) : (b >>> 1).toNat = b.toNat / 2 := by
  rw [BitVec.toNat_ushiftRight, Nat.shiftRight_one]

theorem toNat_shiftLeft_one (b : Byte) : (b <<< 1).toNat = b.toNat * 2 % 256 := by
  rw [BitVec.toNat_shiftLeft, Nat.shiftLeft_eq]

/-- A subtraction with its no-borrow flag, whichever operand is the destination. -/
theorem exec_answers_of_sub {i : Instr} {s : State} {x : Reg} {a b : Byte}
    (h : exec i s = .next (s.writeWithFlag x (a - b) (noBorrowFlag a b))) :
    ∃ t, exec i s = .next t ∧
      (x ≠ 0xF → (t.readV x).toNat = (a.toNat + 256 - b.toNat) % 256) ∧
      t.readV 0xF = (if a.toNat < b.toNat then 0 else 1) ∧
      RegsSameBut [x, 0xF] s t ∧ OnlyChanges [.regs] s t := by
  obtain ⟨t, ht, hvalue, hflag, hframe⟩ := exec_answers_of_writeWithFlag h
  exact ⟨t, ht, fun hx => by rw [hvalue hx, toNat_sub_mod], hflag.trans (noBorrowFlag_eq a b),
    hframe⟩

/-- Settles O27: the meaning is the modular sum with the carry of the exact sum. -/
theorem addWritesSumAndCarry : Obligations.AddWritesSumAndCarry := by
  intro x y s
  obtain ⟨t, ht, hvalue, hflag, hframe⟩ := exec_answers_of_writeWithFlag (exec_addReg x y s)
  exact ⟨t, ht, fun hx => by rw [hvalue hx, BitVec.toNat_add], hflag.trans (carryFlag_eq _ _),
    hframe⟩

/-- Settles O28: each of the two meanings is a modular difference with its no-borrow flag. -/
theorem subtractWritesDifferenceAndNoBorrow : Obligations.SubtractWritesDifferenceAndNoBorrow := by
  intro x y s
  exact ⟨exec_answers_of_sub (exec_subReg x y s), exec_answers_of_sub (exec_subnReg x y s)⟩

/-- Settles O29: each of the two meanings is a shift of `V[y]` with the bit shifted out. -/
theorem shiftsMoveVyByOneBit : Obligations.ShiftsMoveVyByOneBit := by
  intro x y s
  constructor
  · obtain ⟨t, ht, hvalue, hflag, hframe⟩ := exec_answers_of_writeWithFlag (exec_shrReg x y s)
    exact ⟨t, ht, fun hx => by rw [hvalue hx, toNat_shiftRight_one],
      by rw [hflag, lowBitFlag_toNat], hframe⟩
  · obtain ⟨t, ht, hvalue, hflag, hframe⟩ := exec_answers_of_writeWithFlag (exec_shlReg x y s)
    exact ⟨t, ht, fun hx => by rw [hvalue hx, toNat_shiftLeft_one],
      by rw [hflag, highBitFlag_toNat], hframe⟩

end Sys2Proof.Machine
end

section
/-! PROOFS. The index register and memory at `I` (spec/42_index_memory.md R202 to R207, spec/20_memory.md sections 5 and 8). -/

namespace Sys2Proof.Machine

/-! `I` -/

/-- The glyph address of any byte is at most `5 * 255`, so it does not wrap. -/
theorem glyphAddr_toNat (d : Byte) : (glyphAddr d).toNat = 5 * d.toNat := by
  have hd : d.toNat < 256 := d.isLt
  rw [glyphAddr, fontBase, BitVec.toNat_ofNat, Nat.mod_eq_of_lt (by omega)]
  omega

theorem digitRejected_of_digit {d : Byte} (h : d.toNat < 16) : digitRejected d = false := by
  simp [digitRejected, Nat.not_le.2 h]

theorem exec_ldF_answers {x : Reg} {s : State} (h : digitRejected (s.readV x) = false) :
    ∃ t, exec (.ldF x) s = .next t ∧ t.i.toNat = 5 * (s.readV x).toNat ∧ OnlyChanges [.i] s t := by
  rw [← glyphAddr_toNat]
  exact exec_answers_of_setI (exec_ldF_accepted x h)

/-- Settles O31: the meaning is one write of `I` with the modular sum. -/
theorem indexAdd : Obligations.IndexAdd := by
  intro x s
  obtain ⟨t, ht, hvalue, hframe⟩ := exec_answers_of_setI (exec_addI x s)
  exact ⟨t, ht, by rw [hvalue, BitVec.toNat_add, byteToWord_toNat], hframe⟩

/-- Settles O32: a digit is never rejected, and any other byte as the open choice says. -/
theorem fontAddress : Obligations.FontAddress := by
  intro x s
  refine ⟨fun hdigit => exec_ldF_answers (digitRejected_of_digit hdigit), fun _ => ?_⟩
  cases h : digitRejected (s.readV x) with
  | true => exact ⟨_, exec_ldF_rejected x h, .inr (s.afterExecError_leaves _)⟩
  | false =>
    obtain ⟨t, ht, hanswer⟩ := exec_ldF_answers h
    exact ⟨t, ht, .inl hanswer⟩

/-! The range check in the numbers of the statements. -/

theorem State.rangeInMem_succ_of_le {s : State} {n : Nat} (h : s.i.toNat + n ≤ 0xFFF) :
    s.rangeInMem (n + 1) = true :=
  (s.rangeInMem_iff (n + 1)).2 (.inr h)

theorem State.rangeInMem_succ_of_lt {s : State} {n : Nat} (h : 0xFFF < s.i.toNat + n) :
    s.rangeInMem (n + 1) = false := by
  rw [Bool.eq_false_iff, Ne, s.rangeInMem_iff]
  omega

/-- An instruction that raises the range error answers with one of the two ends of the range. -/
theorem exec_answers_of_rangeError {i : Instr} {s : State} {len : Nat}
    (h : ∃ e, s.RangeError len e ∧ exec i s = .next (s.afterExecError e)) :
    ∃ t a, exec i s = .next t ∧ (a = s.i.toNat ∨ a = s.i.toNat + (len - 1)) ∧
      LeavesError (.indexRegister a) s t := by
  obtain ⟨e, rfl | rfl, hexec⟩ := h
  · exact ⟨_, _, hexec, .inl rfl, s.afterExecError_leaves _⟩
  · exact ⟨_, _, hexec, .inr rfl, s.afterExecError_leaves _⟩

/-! Decimal digits -/

/-- The digits of a byte as numbers: hundreds, tens, ones. -/
theorem bcdDigits_getD_toNat (b : Byte) :
    ((bcdDigits b).getD 0 0).toNat = b.toNat / 100 ∧
    ((bcdDigits b).getD 1 0).toNat = b.toNat / 10 % 10 ∧
    ((bcdDigits b).getD 2 0).toNat = b.toNat % 10 := by
  have hb : b.toNat < 256 := b.isLt
  refine ⟨Nat.mod_eq_of_lt ?_, Nat.mod_eq_of_lt ?_, Nat.mod_eq_of_lt ?_⟩ <;> omega

/-- Inside memory the store of the digits answers a next state that differs in its three bytes. -/
theorem exec_ldB_answers (x : Reg) {s : State} (h : s.i.toNat + 2 ≤ 0xFFF) :
    ∃ t, exec (.ldB x) s = .next t ∧
      (t.byteAt s.i.toNat).toNat = (s.readV x).toNat / 100 ∧
      (t.byteAt (s.i.toNat + 1)).toNat = (s.readV x).toNat / 10 % 10 ∧
      (t.byteAt (s.i.toNat + 2)).toNat = (s.readV x).toNat % 10 ∧
      MemSameOutside s.i.toNat 3 s t ∧ OnlyChanges [.mem] s t := by
  obtain ⟨m, hexec, hover⟩ := exec_ldB_inside x (State.rangeInMem_succ_of_le h)
  have hread (k : Nat) (hk : k < 3) :
      (s.setMem m).byteAt (s.i.toNat + k) = (bcdDigits (s.readV x)).getD k 0 :=
    hover.read_inside (by rwa [bcdDigits_length])
  obtain ⟨hhundreds, htens, hones⟩ := bcdDigits_getD_toNat (s.readV x)
  refine ⟨_, hexec, ?_, ?_, ?_, hover.sameOutside (bcdDigits_length _), s.setMem_frame m⟩
  · exact (congrArg _ (hread 0 (by decide))).trans hhundreds
  · exact (congrArg _ (hread 1 (by decide))).trans htens
  · exact (congrArg _ (hread 2 (by decide))).trans hones

/-- Settles O33: the range check decides between the three bytes and the error. -/
theorem bcdStoresTheDigits : Obligations.BcdStoresTheDigits := by
  intro x s
  refine ⟨exec_ldB_answers x, fun hpast => ?_⟩
  exact exec_answers_of_rangeError (exec_ldB_outside x (State.rangeInMem_succ_of_lt hpast))

/-- Settles O34: hundreds, tens and ones are the quotients and remainders by 10. -/
theorem bcdDigitsGiveTheByteBack : Obligations.BcdDigitsGiveTheByteBack := by
  intro x s t hin hexec
  obtain ⟨u, hu, hhundreds, htens, hones, -⟩ := exec_ldB_answers x hin
  cases hu.symm.trans hexec
  have hbyte : (s.readV x).toNat < 256 := (s.readV x).isLt
  rw [hhundreds, htens, hones]
  omega

/-! Registers to memory and back -/

/-- `I` past a range that lies inside memory. -/
theorem State.i_add_regCount_toNat {s : State} {x : Reg} (h : s.i.toNat + x.toNat ≤ 0xFFF) :
    (s.i + BitVec.ofNat 16 (regCount x)).toNat = s.i.toNat + x.toNat + 1 := by
  rw [BitVec.toNat_add, BitVec.toNat_ofNat, regCount]
  omega

/-- Inside memory the store answers a next state that differs in `I` and the bytes stored. -/
theorem exec_storeRegs_answers (x : Reg) {s : State} (h : s.i.toNat + x.toNat ≤ 0xFFF) :
    ∃ t, exec (.storeRegs x) s = .next t ∧
      (∀ k : Reg, k.toNat ≤ x.toNat → t.byteAt (s.i.toNat + k.toNat) = s.readV k) ∧
      t.i.toNat = s.i.toNat + x.toNat + 1 ∧
      MemSameOutside s.i.toNat (x.toNat + 1) s t ∧ OnlyChanges [.mem, .i] s t := by
  obtain ⟨m, hexec, hover⟩ := exec_storeRegs_inside x (State.rangeInMem_succ_of_le h)
  refine ⟨_, hexec, fun k hk => ?_, State.i_add_regCount_toNat h,
    Memory.Overlay.sameOutside hover (s.firstRegs_length _), ?_⟩
  · have hlt : k.toNat < regCount x := Nat.lt_succ_of_le hk
    have hread := hover.read_inside (k := k.toNat) (by rwa [State.firstRegs_length])
    rw [State.firstRegs_getD s hlt, BitVec.ofNat_toNat, BitVec.setWidth_eq] at hread
    exact hread
  · exact ((s.setI_frame _).trans (State.setMem_frame _ m)).mono (by simp)

/-- Inside memory the load answers a next state that differs in `I` and the registers loaded. -/
theorem exec_loadRegs_answers (x : Reg) {s : State} (h : s.i.toNat + x.toNat ≤ 0xFFF) :
    ∃ t, exec (.loadRegs x) s = .next t ∧
      (∀ k : Reg, t.readV k =
        if k.toNat ≤ x.toNat then s.byteAt (s.i.toNat + k.toNat) else s.readV k) ∧
      t.i.toNat = s.i.toNat + x.toNat + 1 ∧ OnlyChanges [.regs, .i] s t :=
  ⟨_, exec_loadRegs_inside x (State.rangeInMem_succ_of_le h), s.readV_loaded x,
    State.i_add_regCount_toNat h, (s.putRegs_frame 0 _).trans (State.setI_frame _ _)⟩

/-- Settles O35: the range check decides between the store and the error. -/
theorem storeRegisters : Obligations.StoreRegisters := by
  intro x s
  refine ⟨exec_storeRegs_answers x, fun hpast => ?_⟩
  exact exec_answers_of_rangeError (exec_storeRegs_outside x (State.rangeInMem_succ_of_lt hpast))

/-- Settles O36: the range check decides between the load and the error. -/
theorem loadRegisters : Obligations.LoadRegisters := by
  intro x s
  refine ⟨exec_loadRegs_answers x, fun hpast => ?_⟩
  exact exec_answers_of_rangeError (exec_loadRegs_outside x (State.rangeInMem_succ_of_lt hpast))

/-- After a store inside memory the bytes stored are the registers. -/
theorem byteAt_of_storeRegs {x : Reg} {s t : State} (h : s.i.toNat + x.toNat ≤ 0xFFF)
    (hexec : exec (.storeRegs x) s = .next t) {k : Reg} (hk : k.toNat ≤ x.toNat) :
    Memory.read t.mem (s.i.toNat + k.toNat) = s.readV k := by
  obtain ⟨u, hu, hbytes, -⟩ := exec_storeRegs_answers x h
  cases hu.symm.trans hexec
  exact hbytes k hk

/-- Settles O37: the load reads the bytes the store wrote. -/
theorem storeThenLoadGivesTheRegistersBack : Obligations.StoreThenLoadGivesTheRegistersBack := by
  intro x s t u hin hstore hmem hi
  obtain ⟨w, hload, hregs, -⟩ := exec_loadRegs_answers x (s := u) (by rwa [hi])
  refine ⟨w, hload, fun k hk => ?_⟩
  rw [hregs, if_pos hk, State.byteAt, hmem, hi, byteAt_of_storeRegs hin hstore hk]

/-- Settles O38: the two bytes at `pc` are the registers stored there. -/
theorem storedBytesAreFetched : Obligations.StoredBytesAreFetched := by
  intro x k s t u hin hk hstore hmem hpc
  have hx : x.toNat < 16 := x.isLt
  have hnext : (k + 1).toNat = k.toNat + 1 :=
    BitVec.toNat_add_of_lt (y := 1#4) (show k.toNat + 1 < 16 by omega)
  have hfirst := byteAt_of_storeRegs hin hstore (k := k) (by omega)
  have hsecond := byteAt_of_storeRegs hin hstore (k := k + 1) (by omega)
  rw [hnext, ← Nat.add_assoc] at hsecond
  rw [State.wordAtPc, hmem, hpc, hfirst, hsecond]

/-- Settles O39: inside memory each access is a read or a write of the memory, above it the fault. -/
theorem byteReadAfterWrite : Obligations.ByteReadAfterWrite := by
  intro s a b
  refine ⟨fun hin => ?_, fun hout => ?_⟩
  · refine ⟨_, s.writeByte_inside b hin, ?_, fun c hc => ?_, s.setMem_frame _⟩
    · rw [State.readByte_inside _ hin, State.setMem_mem, Memory.read_write, if_pos rfl]
    · rw [State.readByte, State.setMem_mem, Memory.read_write, if_neg hc]
      rfl
  · exact ⟨if_neg (Nat.not_lt.2 hout), if_neg (Nat.not_lt.2 hout)⟩

end Sys2Proof.Machine
end

section
/-! PROOFS. The sprite draw (spec/43_display.md R232 to R240): the drawing loop is the sprite's mask laid over the framebuffer. -/

namespace Sys2Proof.Machine

/-- A lit pixel lies under the sprite. -/
def State.SpriteHits (s : State) (x y : Reg) (n : Nibble) : Prop :=
  ∃ px py, s.fb.pixel px py = true ∧ s.spriteMask x y n px py = true

/-- The mask of the rows read at `I` is the sprite's mask. -/
theorem rowsMask_bytesAtI (s : State) (x y : Reg) (n : Nibble) (px : Fin 64) (py : Fin 32) :
    rowsMask (s.readV x).toNat (s.readV y).toNat (s.bytesAtI n.toNat) px py =
      s.spriteMask x y n px py := by
  have hn : n.toNat < 16 := n.isLt
  rw [rowsMask_eq _ _ _ (s.readV x).isLt (s.readV y).isLt (by rw [State.bytesAtI_length]; omega),
    State.bytesAtI_length, State.spriteMask]
  by_cases hrow : (py.val + 256 - (s.readV y).toNat) % 32 < n.toNat
  · rw [State.bytesAtI_getD s hrow]
  · simp [hrow]

/-- The canvas after the sprite's rows, from the framebuffer with no collision noted. -/
theorem drawRows_spriteMask (s : State) (x y : Reg) (n : Nibble) :
    Canvas.Masked (s.spriteMask x y n) (s.fb, false)
      (drawRows (s.readV x).toNat (s.readV y).toNat (s.bytesAtI n.toNat) (s.fb, false)) := by
  have hn : n.toNat < 16 := n.isLt
  exact (drawRows_masked _ _ _ _ (by rw [State.bytesAtI_length]; omega)).congr
    (rowsMask_bytesAtI s x y n)

theorem State.drawSprite_pixel (s : State) (x y : Reg) (n : Nibble) (px : Fin 64) (py : Fin 32) :
    (s.drawSprite x y (s.bytesAtI n.toNat)).fb.pixel px py =
      (s.fb.pixel px py ^^ s.spriteMask x y n px py) :=
  (drawRows_spriteMask s x y n).1 px py

theorem flagByte_eq_one_iff (c : Bool) : flagByte c = 1 ↔ c = true := by cases c <;> decide

theorem flagByte_eq_zero_iff (c : Bool) : flagByte c = 0 ↔ c = false := by cases c <;> decide

/-- `VF` after a draw tells whether the sprite hit a lit pixel. -/
theorem State.drawSprite_flag (s : State) (x y : Reg) (n : Nibble) :
    ((s.drawSprite x y (s.bytesAtI n.toNat)).readV 0xF = 1 ↔ s.SpriteHits x y n) ∧
    ((s.drawSprite x y (s.bytesAtI n.toNat)).readV 0xF = 0 ↔ ¬ s.SpriteHits x y n) := by
  have hhits := (drawRows_spriteMask s x y n).2
  simp only [Bool.false_eq_true, false_or] at hhits
  unfold State.drawSprite State.SpriteHits
  simp only [State.readV_setDirty, State.readV_writeV, show (0xF : Reg) = regVF from rfl, if_true,
    flagByte_eq_one_iff, flagByte_eq_zero_iff]
  exact ⟨hhits, by rw [← hhits, Bool.not_eq_true]⟩

theorem exec_drw_of_le (x y : Reg) {n : Nibble} {s : State}
    (h : n = 0 ∨ s.i.toNat + (n.toNat - 1) ≤ 0xFFF) :
    exec (.drw x y n) s = .next (s.drawSprite x y (s.bytesAtI n.toNat)) :=
  exec_drw_inside x y ((s.rangeInMem_iff _).2 (h.imp_left (congrArg BitVec.toNat)))

/-- The mask is read from the two coordinate registers, `I` and memory, and a draw keeps them all
where neither coordinate is `VF`. -/
theorem State.spriteMask_drawSprite (s : State) {x y : Reg} (hx : x ≠ 0xF) (hy : y ≠ 0xF)
    (bs : List Byte) (n : Nibble) (px : Fin 64) (py : Fin 32) :
    (s.drawSprite x y bs).spriteMask x y n px py = s.spriteMask x y n px py := by
  obtain ⟨-, hregs, -⟩ := s.drawSprite_frame x y bs
  have hvx : (s.drawSprite x y bs).readV x = s.readV x := hregs x (mt List.mem_singleton.1 hx)
  have hvy : (s.drawSprite x y bs).readV y = s.readV y := hregs y (mt List.mem_singleton.1 hy)
  have hi : (s.drawSprite x y bs).i = s.i := rfl
  have hmem (a : Nat) : (s.drawSprite x y bs).byteAt a = s.byteAt a := rfl
  simp only [State.spriteMask, hvx, hvy, hi, hmem]

theorem State.spriteMask_no_rows (s : State) (x y : Reg) (px : Fin 64) (py : Fin 32) :
    s.spriteMask x y 0 px py = false := by
  simp [State.spriteMask]

/-! The obligations. -/

/-- Settles O41: the loop draws the mask, notes a collision under it, and the frame is the draw's. -/
theorem drawIsXorWithTheSpriteMask : Obligations.DrawIsXorWithTheSpriteMask := by
  intro x y n s hin
  obtain ⟨hdirty, hregs, hframe⟩ := s.drawSprite_frame x y (s.bytesAtI n.toNat)
  obtain ⟨hone, hzero⟩ := s.drawSprite_flag x y n
  refine ⟨_, exec_drw_of_le x y hin, s.drawSprite_pixel x y n, hone.2, fun hmiss => hzero.2 ?_,
    hdirty, hregs, hframe⟩
  rintro ⟨px, py, hlit, hmask⟩
  simp [hmiss px py hlit] at hmask

/-- Settles O42: the range check answers the error before any row is read. -/
theorem drawPastMemoryIsAnError : Obligations.DrawPastMemoryIsAnError := by
  intro x y n s hn hpast
  have hn0 : n.toNat ≠ 0 := fun h => hn (BitVec.eq_of_toNat_eq h)
  have hrange : s.rangeInMem n.toNat = false := by
    rw [Bool.eq_false_iff, Ne, s.rangeInMem_iff]
    omega
  exact exec_answers_of_rangeError (exec_drw_outside x y hrange)

/-- Settles O43: a sprite of no rows has an empty mask. -/
theorem drawOfNoRows : Obligations.DrawOfNoRows := by
  intro x y s
  obtain ⟨hdirty, hregs, hframe⟩ := s.drawSprite_frame x y (s.bytesAtI (0 : Nibble).toNat)
  refine ⟨_, exec_drw_of_le x y (.inl rfl), ?_, hdirty, hregs, hframe.drop fun px py => ?_⟩
  · refine (s.drawSprite_flag x y 0).2.2 fun ⟨px, py, _, hmask⟩ => ?_
    rw [s.spriteMask_no_rows] at hmask
    cases hmask
  · rw [s.drawSprite_pixel, s.spriteMask_no_rows, Bool.xor_false]

/-- Settles O44: both draws lay the same mask, which erases itself; with no hit in the first draw the
pixels lit under the mask in the second are those of the mask. -/
theorem drawTwiceErases : Obligations.DrawTwiceErases := by
  intro x y n s t u hx hy hin hfirst hsecond
  cases hfirst.symm.trans (exec_drw_of_le x y hin)
  have hmask := s.spriteMask_drawSprite hx hy (s.bytesAtI n.toNat) n
  have hpixel := s.drawSprite_pixel x y n
  have hzero := (s.drawSprite_flag x y n).2
  have hin' : n = 0 ∨ (s.drawSprite x y (s.bytesAtI n.toNat)).i.toNat + (n.toNat - 1) ≤ 0xFFF := hin
  generalize s.drawSprite x y (s.bytesAtI n.toNat) = t at hsecond hmask hpixel hzero hin' ⊢
  cases hsecond.symm.trans (exec_drw_of_le x y hin')
  refine ⟨fun px py => ?_, fun hclear => ?_⟩
  · rw [t.drawSprite_pixel, hpixel, hmask, Bool.xor_assoc, Bool.xor_self, Bool.xor_false]
  · rw [(t.drawSprite_flag x y n).1]
    constructor
    · rintro ⟨px, py, -, hcover⟩
      exact ⟨px, py, (hmask px py).symm.trans hcover⟩
    · rintro ⟨px, py, hcover⟩
      have hdark : s.fb.pixel px py = false :=
        Bool.eq_false_iff.2 fun hlit => hzero.1 hclear ⟨px, py, hlit, hcover⟩
      exact ⟨px, py, by rw [hpixel, hdark, hcover]; rfl, (hmask px py).trans hcover⟩

end Sys2Proof.Machine
end

section
/-! PROOFS. The random byte and the key skips (spec/44_random_keys_timers.md R260 to R262). -/

namespace Sys2Proof.Machine

/-- Settles O45: the meaning is one register write and one count of a draw. -/
theorem randomByteIsMasked : Obligations.RandomByteIsMasked := by
  intro x nn s
  obtain ⟨hregs, hframe⟩ := s.writeV_frame x (s.rand &&& nn)
  refine ⟨_, exec_rnd x nn s, fun k _ => ?_, rfl, hregs, hframe.trans (State.countDraw_frame _)⟩
  rw [State.readV_countDraw, State.readV_writeV, if_pos rfl, BitVec.getLsbD_and, State.rand]

/-- Settles O46: on a byte that names a key each of the two meanings is a skip on that key. -/
theorem keySkips : Obligations.KeySkips := by
  intro x s
  refine ⟨fun k hk => ?_, fun hnone => ⟨?_, ?_⟩⟩
  · have hlt : (s.readV x).toNat < 16 := hk ▸ k.isLt
    have hkey : (⟨_, hlt⟩ : Fin 16) = k := Fin.ext hk
    constructor
    · exact exec_answers_of_skipIf (hkey ▸ exec_skp_key x hlt)
    · obtain ⟨t, ht, hframe, hpc⟩ := exec_answers_of_skipIf (hkey ▸ exec_sknp_key x hlt)
      exact ⟨t, ht, hframe, hpc.trans (by cases s.keyDown k <;> rfl)⟩
  · exact ⟨_, exec_skp_no_key x hnone, s.afterExecError_leaves _⟩
  · exact ⟨_, exec_sknp_no_key x hnone, s.afterExecError_leaves _⟩

end Sys2Proof.Machine
end

section
/-! PROOFS. The driver's calls other than `cycle()` (spec/60_exceptions.md R320 to R336, spec/70_reset_and_hazards.md R350 to R357). -/

namespace Sys2Proof.Machine

theorem tickByte_toNat (b : Byte) : (tickByte b).toNat = b.toNat - 1 := by
  unfold tickByte
  split_ifs with h
  · exact BitVec.toNat_sub_of_le (show (1 : Byte).toNat ≤ b.toNat from h)
  · omega

theorem State.tickTimers_frame (s : State) : OnlyChanges [.dt, .st, .result] s s.tickTimers :=
  ((s.setDt_frame _).trans (State.setSt_frame _ _)).trans (State.setResult_frame _ _)

theorem State.keyDown_setKeys_set (s : State) {index : Nat} (h : index < 16) (pressed : Bool)
    (k : Fin 16) : (s.setKeys (s.keys.set index pressed)).keyDown k =
      if k.val = index then pressed else s.keyDown k := by
  simp only [State.keyDown, State.setKeys_keys, Vector.getElem_set, eq_comm]

/-- The call list's own change, and then what the call changes. -/
theorem State.frame_of_listed (s : State) (rest : List DriverCall) {es : List Element} {t : State}
    (h : OnlyChanges es (s.setCalls rest) t) : OnlyChanges (.calls :: es) s t :=
  (s.setCalls_frame rest).trans h

/-! The obligations. -/

/-- Settles O17: the call is the reset state but for the model's own fields. -/
theorem resetCallLeavesTheResetState : Obligations.ResetCallLeavesTheResetState := by
  intro s rest hcalls
  refine ⟨_, step_of_listed hcalls, rfl, fun r => ?_, rfl, rfl, rfl, rfl,
    Framebuffer.pixel_blank, rfl, fun k => ?_, fun a _ => rfl, fun a ha => Memory.unlisted_above_font ha, rfl, rfl, rfl, rfl⟩
  · exact Vector.getElem_replicate _
  · exact Vector.getElem_replicate _

/-- Settles O50: each timer is written with its tick. -/
theorem tickCountsTimersDown : Obligations.TickCountsTimersDown := by
  intro s rest hcalls
  refine ⟨_, step_of_listed hcalls, tickByte_toNat s.dt, tickByte_toNat s.st, rfl, rfl, ?_⟩
  exact (s.frame_of_listed rest (State.tickTimers_frame _)).mono (by simp)

/-- Settles O51: only the tick from 2 leaves the sound timer at 1. -/
theorem soundSignalOnTheTickToOne : Obligations.SoundSignalOnTheTickToOne := by
  intro s t rest hcalls hstep
  cases hstep.symm.trans (step_of_listed hcalls)
  have htick : (tickByte s.st = 1) ↔ s.st.toNat - 1 = 1 := by
    rw [← tickByte_toNat]
    exact (BitVec.toNat_inj (y := 1#8)).symm
  have htwo : s.st = 2 ↔ s.st.toNat = 2 := (BitVec.toNat_inj (y := 2#8)).symm
  show (s.st == 2 && tickByte s.st == 1) = true ↔ _
  rw [Bool.and_eq_true, beq_iff_eq, beq_iff_eq, htick, htwo]
  omega

/-- Settles O52: the index decides between one write of the latch and the error. -/
theorem setKeyLatchesOrRejects : Obligations.SetKeyLatchesOrRejects := by
  intro s index pressed rest hcalls
  have hstep : step s = .next ((s.setCalls rest).setKey index pressed) := step_of_listed hcalls
  refine ⟨fun hkey => ?_, fun hnone => ?_⟩
  · rw [State.setKey_inside _ pressed hkey] at hstep
    refine ⟨_, hstep, State.keyDown_setKeys_set _ hkey pressed, rfl, rfl, ?_⟩
    exact (s.frame_of_listed rest ((State.setKeys_frame _ _).trans (State.setResult_frame _ _))).mono
      (by simp)
  · rw [State.setKey_outside _ pressed hnone] at hstep
    exact ⟨_, hstep, rfl, rfl, s.frame_of_listed rest (State.fail_frame _ _)⟩

/-- Settles O53: the length decides between the bytes laid over memory and the error. -/
theorem loadCopiesTheBytes : Obligations.LoadCopiesTheBytes := by
  intro s bytes rest hcalls
  have hstep : step s = (s.setCalls rest).loadCall bytes := step_of_listed hcalls
  rcases (s.setCalls rest).loadCall_cases bytes with ⟨hlong, hload⟩ | ⟨hshort, m, hload, hread, hwf⟩
  · refine ⟨fun h => absurd hlong (Nat.not_lt.2 h), fun _ => ?_⟩
    exact ⟨_, hstep.trans hload, rfl, rfl, s.frame_of_listed rest (State.fail_frame _ _)⟩
  · refine ⟨fun _ => ?_, fun h => absurd h (Nat.not_lt.2 hshort)⟩
    have hover : Memory.Overlay s.mem m 0x200 bytes := ⟨hread, hwf⟩
    refine ⟨_, hstep.trans hload, fun k hk => hover.read_inside hk, hover.sameOutside rfl,
      rfl, rfl, ?_⟩
    exact (s.frame_of_listed rest ((State.setResult_frame _ _).trans (State.setMem_frame _ _))).mono
      (by simp)

/-- Settles O54: the view is returned, and its elements are the pixels row by row. -/
theorem framebufferViewIsRowMajor : Obligations.FramebufferViewIsRowMajor := by
  intro s rest hcalls
  exact ⟨_, _, step_of_listed hcalls, rfl, s.fb.view_pixel, rfl,
    s.frame_of_listed rest (State.setResult_frame _ _)⟩

/-- Settles O55: the query is one write of the result, the clear one more of the flag. -/
theorem dirtyQueryAndClear : Obligations.DirtyQueryAndClear := by
  intro s rest
  refine ⟨fun hcalls => ?_, fun hcalls => ?_⟩
  · exact ⟨_, step_of_listed hcalls, rfl, rfl, s.frame_of_listed rest (State.setResult_frame _ _)⟩
  · refine ⟨_, step_of_listed hcalls, rfl, rfl, rfl, ?_⟩
    exact (s.frame_of_listed rest ((State.setDirty_frame _ _).trans (State.setResult_frame _ _))).mono
      (by simp)

end Sys2Proof.Machine
end

section
/-! PROOFS. No instruction reads the sound timer or the dirty flag (spec/10_state.md section 6, R45, R47): every meaning commutes with a rewriting of these two parts, but where it writes them. -/

namespace Sys2Proof.Machine

/-- The sound timer rewritten by `g` and the dirty flag by `h`. -/
def State.mapUnread (g : Byte → Byte) (h : Bool → Bool) (s : State) : State :=
  { s with st := g s.st, dirty := h s.dirty }

/-- The next state of an answer rewritten by `f`. -/
def mapNext (f : State → State) : Answer → Answer
  | .next t => .next (f t)
  | .fault r => .fault r
  | .refused r => .refused r

theorem State.setSt_eq_mapUnread (s : State) (b : Byte) :
    s.setSt b = s.mapUnread (fun _ => b) id := rfl

theorem State.setDirty_eq_mapUnread (s : State) (d : Bool) :
    s.setDirty d = s.mapUnread id (fun _ => d) := rfl

section MapUnread

variable {g : Byte → Byte} {h : Bool → Bool}

theorem State.putRegs_mapUnread (s : State) (k : Nat) (bs : List Byte) :
    (s.mapUnread g h).putRegs k bs = (s.putRegs k bs).mapUnread g h := by
  induction bs generalizing s k with
  | nil => rfl
  | cons b bs ih => exact ih (s.writeV (BitVec.ofNat 4 k) b) (k + 1)

theorem finish_writeBytes_mapUnread (s : State) (a : Nat) (bs : List Byte) :
    finish ((s.mapUnread g h).writeBytes a bs) =
      mapNext (State.mapUnread g h) (finish (s.writeBytes a bs)) := by
  induction bs generalizing s a with
  | nil => rfl
  | cons b bs ih =>
    by_cases ha : a < memSize
    · rw [State.writeBytes, State.writeBytes, State.writeByte_inside _ b ha,
        State.writeByte_inside _ b ha]
      exact ih (s.setMem (Memory.write s.mem a b)) (a + 1)
    · rw [State.writeBytes, State.writeBytes, State.writeByte, State.writeByte, if_neg ha, if_neg ha]
      rfl

/-- The range check reads `I` alone, so it answers the same way. -/
theorem State.withRange_mapUnread {s : State} {len : Nat} {k k' : Answer}
    (hk : s.rangeInMem len = true → k' = mapNext (State.mapUnread g h) k) :
    (s.mapUnread g h).withRange len k' = mapNext (State.mapUnread g h) (s.withRange len k) := by
  cases hrange : s.rangeInMem len with
  | true =>
    rw [s.withRange_inside _ hrange, (s.mapUnread g h).withRange_inside _ hrange]
    exact hk hrange
  | false =>
    rw [s.withRange_outside _ hrange, (s.mapUnread g h).withRange_outside _ hrange]
    rfl

theorem State.skipIf_mapUnread (s : State) (c : Bool) :
    (s.mapUnread g h).skipIf c = (s.skipIf c).mapUnread g h := by
  cases c <;> rfl

theorem State.setSt_mapUnread (s : State) {b : Byte} (hb : g b = b) :
    (s.mapUnread g h).setSt b = (s.setSt b).mapUnread g h := by
  simp only [State.mapUnread, State.setSt, hb]

theorem State.setDirty_mapUnread (s : State) {d : Bool} (hd : h d = d) :
    (s.mapUnread g h).setDirty d = (s.setDirty d).mapUnread g h := by
  simp only [State.mapUnread, State.setDirty, hd]

/-- A draw writes the dirty flag last. -/
theorem State.drawSprite_mapUnread (s : State) (x y : Reg) (bs : List Byte) (hd : h true = true) :
    (s.mapUnread g h).drawSprite x y bs = (s.drawSprite x y bs).mapUnread g h := by
  simp only [State.drawSprite, State.mapUnread, State.setDirty, hd]
  rfl

/-- Every meaning commutes with the rewriting, given that a part the instruction writes is
left alone. -/
theorem exec_mapUnread (i : Instr) (s : State) (hst : .st ∈ writesElement i → ∀ b, g b = b)
    (hdirty : .dirty ∈ writesElement i → ∀ d, h d = d) :
    exec i (s.mapUnread g h) = mapNext (State.mapUnread g h) (exec i s) := by
  cases i with
  | nop | jp | ldImm | addImm | ldReg | orReg | andReg | xorReg | addReg | subReg | shrReg | subnReg
  | shlReg | ldI | ldiV0 | addI | rnd | ldVxDt | ldDtVx => rfl
  | seImm | sneImm | seReg | sneReg => exact congrArg _ (s.skipIf_mapUnread _)
  | cls =>
    have htrue : h true = true := hdirty (by simp [writesElement]) true
    exact congrArg _ ((s.setFb Framebuffer.blank).setDirty_mapUnread htrue)
  | ldStVx x =>
    rw [exec_ldStVx, exec_ldStVx]
    exact congrArg _ (s.setSt_mapUnread (hst (by simp [writesElement]) _))
  | ret =>
    cases hstack : s.stack with
    | nil =>
      rw [exec_ret_nil hstack, exec_ret_nil (s := s.mapUnread g h) hstack]
      rfl
    | cons a rest =>
      rw [exec_ret_cons hstack, exec_ret_cons (s := s.mapUnread g h) hstack]
      rfl
  | call nnn =>
    by_cases hroom : s.stack.length < 16
    · rw [exec_call_room nnn hroom, exec_call_room (s := s.mapUnread g h) nnn hroom]
      rfl
    · rw [exec_call_full nnn (Nat.not_lt.1 hroom),
        exec_call_full (s := s.mapUnread g h) nnn (Nat.not_lt.1 hroom)]
      rfl
  | skp x =>
    by_cases hkey : (s.readV x).toNat < 16
    · rw [exec_skp_key x hkey, exec_skp_key (s := s.mapUnread g h) x hkey]
      exact congrArg _ (s.skipIf_mapUnread _)
    · rw [exec_skp_no_key x (Nat.not_lt.1 hkey),
        exec_skp_no_key (s := s.mapUnread g h) x (Nat.not_lt.1 hkey)]
      rfl
  | sknp x =>
    by_cases hkey : (s.readV x).toNat < 16
    · rw [exec_sknp_key x hkey, exec_sknp_key (s := s.mapUnread g h) x hkey]
      exact congrArg _ (s.skipIf_mapUnread _)
    · rw [exec_sknp_no_key x (Nat.not_lt.1 hkey),
        exec_sknp_no_key (s := s.mapUnread g h) x (Nat.not_lt.1 hkey)]
      rfl
  | ldVxK x =>
    cases hkey : s.lowestKey with
    | none =>
      rw [exec_ldVxK_of_none x hkey, exec_ldVxK_of_none (s := s.mapUnread g h) x hkey]
      rfl
    | some k =>
      rw [exec_ldVxK_of_some x hkey, exec_ldVxK_of_some (s := s.mapUnread g h) x hkey]
      rfl
  | ldF x =>
    cases hdigit : digitRejected (s.readV x) with
    | true =>
      rw [exec_ldF_rejected x hdigit, exec_ldF_rejected (s := s.mapUnread g h) x hdigit]
      rfl
    | false =>
      rw [exec_ldF_accepted x hdigit, exec_ldF_accepted (s := s.mapUnread g h) x hdigit]
      rfl
  | ldB x => exact State.withRange_mapUnread fun _ => finish_writeBytes_mapUnread s _ _
  | storeRegs x =>
    exact State.withRange_mapUnread fun _ => finish_writeBytes_mapUnread (s.setI _) _ _
  | loadRegs x =>
    refine State.withRange_mapUnread fun hrange => ?_
    rw [s.withBytes_inside _ hrange, (s.mapUnread g h).withBytes_inside _ hrange]
    exact congrArg _ (congrArg (State.setI · (s.i + BitVec.ofNat 16 (regCount x)))
      (s.putRegs_mapUnread 0 _))
  | drw x y n =>
    have htrue : h true = true := hdirty (by simp [writesElement]) true
    refine State.withRange_mapUnread fun hrange => ?_
    rw [s.withBytes_inside _ hrange, (s.mapUnread g h).withBytes_inside _ hrange]
    exact congrArg _ (s.drawSprite_mapUnread x y _ htrue)

end MapUnread

/-- The one writer of the sound timer. -/
theorem eq_ldStVx_of_writes_st {i : Instr} (h : .st ∈ writesElement i) : ∃ x, i = .ldStVx x := by
  cases i <;> simp_all [writesElement]

/-- The two writers of the dirty flag. -/
theorem eq_cls_or_drw_of_writes_dirty {i : Instr} (h : .dirty ∈ writesElement i) :
    i = .cls ∨ ∃ x y n, i = .drw x y n := by
  cases i <;> simp_all [writesElement]

/-- The draw checks its range before it writes the dirty flag. -/
theorem exec_drw_setDirty (x y : Reg) (n : Nibble) (s : State) (d : Bool) :
    exec (.drw x y n) (s.setDirty d) = exec (.drw x y n) s ∨
      exec (.drw x y n) (s.setDirty d) = mapNext (fun t => t.setDirty d) (exec (.drw x y n) s) := by
  cases hrange : s.rangeInMem n.toNat with
  | true =>
    rw [exec_drw_inside x y hrange, exec_drw_inside (s := s.setDirty d) x y hrange]
    exact .inl rfl
  | false =>
    refine .inr ?_
    show (s.setDirty d).withRange _ _ = mapNext _ (s.withRange _ _)
    rw [s.withRange_outside _ hrange, (s.setDirty d).withRange_outside _ hrange]
    rfl

/-! The obligations. -/

/-- Settles O58: the one writer of the sound timer overwrites it, and every other meaning commutes
with its rewriting. -/
theorem soundTimerIsNeverRead : Obligations.SoundTimerIsNeverRead := by
  intro i s t b hexec
  by_cases hst : .st ∈ writesElement i
  · obtain ⟨x, rfl⟩ := eq_ldStVx_of_writes_st hst
    exact .inl ⟨hst, hexec⟩
  · refine .inr ?_
    rw [s.setSt_eq_mapUnread, exec_mapUnread (h := id) i s (absurd · hst) fun _ _ => rfl, hexec]
    rfl

/-- Settles O59: clearing the screen overwrites the flag, a draw overwrites it or raises its error, and
every other meaning commutes with its rewriting. -/
theorem dirtyFlagIsNeverRead : Obligations.DirtyFlagIsNeverRead := by
  intro i s t d hexec
  by_cases hdirty : .dirty ∈ writesElement i
  · rcases eq_cls_or_drw_of_writes_dirty hdirty with rfl | ⟨x, y, n, rfl⟩
    · exact .inl ⟨hdirty, hexec⟩
    · rcases exec_drw_setDirty x y n s d with hsame | hmapped
      · exact .inl ⟨hdirty, hsame.trans hexec⟩
      · exact .inr (by rw [hmapped, hexec]; rfl)
  · refine .inr ?_
    rw [s.setDirty_eq_mapUnread, exec_mapUnread (g := id) i s (fun _ _ => rfl) (absurd · hdirty),
      hexec]
    rfl

end Sys2Proof.Machine
end
